-- ==== Sys2Proof/Word.lean ====
section
/-! DEFINITION. The bit-vector types of the machine (00_scope.md R9; widths from R5 and R6). -/

namespace Sys2Proof

/-- A byte: a memory cell, a general register, a timer (R20, R26, R60). -/
abbrev Byte := BitVec 8

/-- A 16-bit value: an instruction word, `pc`, `I`, a stack entry (R6, R22, R23, R25). -/
abbrev Word := BitVec 16

/-- A register number, the 4-bit field `x` or `y` (R91). -/
abbrev Reg := BitVec 4

/-- The immediate nibble `n` (R91). -/
abbrev Nibble := BitVec 4

/-- The 12-bit address field `nnn` (R91). -/
abbrev Addr := BitVec 12

/-- The storage of the display plane: one bit for each cell of the largest geometry, 128 × 64 (R28, R190; log 17). -/
abbrev Plane := BitVec 8192

end Sys2Proof
end

