-- ==== Sys2Proof/Config.lean ====
section
/-! DEFINITION. What an instance is constructed with, the fixed sizes of the spec, and the free values (00_scope.md R5, R7; 60_exceptions.md R260). -/

namespace Sys2Proof

/-- `MEM_SIZE` (R5). -/
abbrev memSize : Nat := 4096

/-- `FONT_BASE` (R5). -/
abbrev fontBase : Nat := 0x050

/-- `FONT_SIZE` (R5). -/
abbrev fontSize : Nat := 80

/-- `GLYPH_BYTES` (R5). -/
abbrev glyphBytes : Nat := 5

/-- `PROG_BASE` (R5). -/
abbrev progBase : Nat := 0x200

/-- `PROG_MAX = MEM_SIZE − PROG_BASE` (R5). -/
abbrev progMax : Nat := 3584

/-- `FRAME_US`, the frame period in microseconds (R5). -/
abbrev frameUs : Nat := 16666

/-- `GEOMETRY`: one of two fixed geometries (R7, R190). -/
inductive Geometry where
  | standard
  | extended
deriving DecidableEq, Repr, Inhabited

/-- The construction parameters that live as long as the instance (R7, R30). `PROGRAM` is not among them: the block keeps no copy of it (R63). -/
structure Config where
  /-- `GEOMETRY` -/
  geometry : Geometry
  /-- `SHIFT_IN_PLACE` (R8) -/
  shiftInPlace : Bool
  /-- `TICK_US`, microseconds per instruction -/
  tickUs : Nat
  /-- `STACK_DEPTH`, the most entries of the call stack -/
  stackDepth : Nat
  /-- `FONT`, glyph `g` at indexes `5g` to `5g + 4` -/
  font : Vector Byte 80
deriving DecidableEq, Repr

/-- The two clocks of the scheduler (R250). -/
inductive Clock where
  /-- fires an engine step (R251) -/
  | instruction
  /-- fires a frame step (R252) -/
  | frame
deriving DecidableEq, Repr, Inhabited

/-- What the block's input ports show during one fire: the environment may change all of it between two fires and nothing of it during one (R253, R261, R263, R264). -/
structure Input where
  /-- the clock that fires (R253: every order is admitted) -/
  clock : Clock
  /-- `key_down[15:0]`, bit k = key k is down (R261) -/
  keyDown : BitVec 16
  /-- the byte `RandomByte()` returns (R264) -/
  rand : Byte
  /-- which of the down keys `AnyKey()` reports (R263) -/
  keyPick : Nat
deriving DecidableEq, Repr, Inhabited

/-- FREE VALUE (log 5): what the environment shows at its n-th undecided fire. It has no body, so nothing can be proved of it: a statement about it holds of every environment. -/
opaque Config.freeInput : Nat → Input

/-- FREE VALUE (log 8): the wall time, in microseconds, at which execution starts (R35, D27). -/
opaque Config.startTimeUs : Nat

end Sys2Proof
end

