-- ==== Sys2Proof/Syntax.lean ====
section
/-! DEFINITION. The 34 instructions, one constructor for each row of spec/opcode_table.json (30_encoding.md R93 to R97, R103). -/

namespace Sys2Proof

/-- An instruction with its operand fields (R91). Unknown words are not instructions of the table and have no constructor (R98; log 24). -/
inductive Instr where
  /-- `CLS`, 00E0 (R120) -/
  | cls
  /-- `RET`, 00EE (R121) -/
  | ret
  /-- `JP nnn`, 1nnn (R122) -/
  | jp (nnn : Addr)
  /-- `CALL nnn`, 2nnn (R123) -/
  | call (nnn : Addr)
  /-- `SE Vx, nn`, 3xnn (R140) -/
  | seImm (x : Reg) (nn : Byte)
  /-- `SNE Vx, nn`, 4xnn (R141) -/
  | sneImm (x : Reg) (nn : Byte)
  /-- `SE Vx, Vy`, 5xy0 (R142) -/
  | seReg (x y : Reg)
  /-- `LD Vx, nn`, 6xnn (R150) -/
  | ldImm (x : Reg) (nn : Byte)
  /-- `ADD Vx, nn`, 7xnn (R151) -/
  | addImm (x : Reg) (nn : Byte)
  /-- `LD Vx, Vy`, 8xy0 (R152) -/
  | ldReg (x y : Reg)
  /-- `OR Vx, Vy`, 8xy1 (R153) -/
  | orReg (x y : Reg)
  /-- `AND Vx, Vy`, 8xy2 (R154) -/
  | andReg (x y : Reg)
  /-- `XOR Vx, Vy`, 8xy3 (R155) -/
  | xorReg (x y : Reg)
  /-- `ADD Vx, Vy`, 8xy4 (R156) -/
  | addReg (x y : Reg)
  /-- `SUB Vx, Vy`, 8xy5 (R157) -/
  | subReg (x y : Reg)
  /-- `SHR Vx, Vy`, 8xy6 (R159) -/
  | shr (x y : Reg)
  /-- `SUBN Vx, Vy`, 8xy7 (R158) -/
  | subn (x y : Reg)
  /-- `SHL Vx, Vy`, 8xyE (R160) -/
  | shl (x y : Reg)
  /-- `SNE Vx, Vy`, 9xy0 (R143) -/
  | sneReg (x y : Reg)
  /-- `LD I, nnn`, Annn (R180) -/
  | ldI (nnn : Addr)
  /-- `JP V0, nnn`, Bnnn (R124) -/
  | jpV0 (nnn : Addr)
  /-- `RND Vx, nn`, Cxnn (R182) -/
  | rnd (x : Reg) (nn : Byte)
  /-- `DRW Vx, Vy, n`, Dxyn (R195) -/
  | drw (x y : Reg) (n : Nibble)
  /-- `SKP Vx`, Ex9E (R210) -/
  | skp (x : Reg)
  /-- `SKNP Vx`, ExA1 (R211) -/
  | sknp (x : Reg)
  /-- `LD Vx, DT`, Fx07 (R220) -/
  | ldVxDT (x : Reg)
  /-- `LD Vx, K`, Fx0A (R212) -/
  | ldVxK (x : Reg)
  /-- `LD DT, Vx`, Fx15 (R221) -/
  | ldDTVx (x : Reg)
  /-- `LD ST, Vx`, Fx18 (R222) -/
  | ldSTVx (x : Reg)
  /-- `ADD I, Vx`, Fx1E (R181) -/
  | addI (x : Reg)
  /-- `LD F, Vx`, Fx29 (R224) -/
  | ldF (x : Reg)
  /-- `LD B, Vx`, Fx33 (R223) -/
  | ldB (x : Reg)
  /-- `LD [I], Vx`, Fx55 (R225) -/
  | ldStore (x : Reg)
  /-- `LD Vx, [I]`, Fx65 (R226) -/
  | ldLoad (x : Reg)
deriving DecidableEq, Repr

end Sys2Proof
end

