-- ==== Sys2Proof/WellFormed.lean ====
section
/-! DEFINITION. The checks on terms: construction parameters and program lie in the domains of 00_scope.md R7, and an instruction's operands in the fields of 30_encoding.md R91. -/

namespace Sys2Proof

/-- `TICK_US` is "positive integer, microseconds per instruction" (R7). -/
def Config.tickOk (c : Config) : Bool := decide (1 ≤ c.tickUs)

/-- `STACK_DEPTH` is "positive integer, maximum call-stack entries" (R7). -/
def Config.depthOk (c : Config) : Bool := decide (1 ≤ c.stackDepth)

/-- The parameters lie in their domains (R7). The other three domains (a geometry, a Bool, 80 bytes) are the types of their fields. -/
def Config.wf (c : Config) : Bool := c.tickOk && c.depthOk

/-- `PROGRAM` is "byte string, length 0 to `PROG_MAX` at most" (R7, R283). -/
def programFits (program : List Byte) : Bool := decide (program.length ≤ progMax)

/-- Every operand lies in the range of its field. The ranges of R91 are the TYPES of the constructors' fields (4, 8 and 12 bits), and no rule forbids a combination of operands (R20: every register may be named; R100, R101: no reserved form), so no term of `Instr` is ill-formed and this check refuses none. -/
def Instr.wf : Instr → Bool := fun _ => true

end Sys2Proof
end

