-- ==== Sys2Proof/Decode.lean ====
section
/-! DEFINITION. Fields, decoder, encoder and opcode table (30_encoding.md R91 to R100). -/

namespace Sys2Proof

/-! ### Fields of the instruction word (R91) -/

/-- `op = w[15:12]` -/
def fieldOp (w : Word) : BitVec 4 := w.extractLsb' 12 4

/-- `x = w[11:8]` -/
def fieldX (w : Word) : Reg := w.extractLsb' 8 4

/-- `y = w[7:4]` -/
def fieldY (w : Word) : Reg := w.extractLsb' 4 4

/-- `n = w[3:0]` -/
def fieldN (w : Word) : Nibble := w.extractLsb' 0 4

/-- `nn = w[7:0]` -/
def fieldNN (w : Word) : Byte := w.extractLsb' 0 8

/-- `nnn = w[11:0]` -/
def fieldNNN (w : Word) : Addr := w.extractLsb' 0 12

/-! ### The decode tree (R93 to R99) -/

/-- The families that hold unknown words, the rows of R98's table. A word that matches no instruction is rejected under its family's name. -/
inductive UnknownFamily where
  /-- op 0, all but 00E0 and 00EE -/
  | family0
  /-- op 5, n ≠ 0 -/
  | family5
  /-- op 8, n ∈ {8..D, F} -/
  | family8
  /-- op 9, n ≠ 0 -/
  | family9
  /-- op E, nn ∉ {9E, A1} -/
  | familyE
  /-- op F, nn outside the nine values of R97 -/
  | familyF
deriving DecidableEq, Repr

/-- What a 16-bit word decodes to: an instruction, or the unknown-opcode no-op (R11, R98). -/
inductive Decoded where
  | instr (i : Instr)
  | unknown (family : UnknownFamily)
deriving DecidableEq, Repr

/-- The 0 family decodes on the whole word (R94). -/
def decode0 (w : Word) : Decoded :=
  if w = 0x00E0#16 then .instr .cls
  else if w = 0x00EE#16 then .instr .ret
  else .unknown .family0

/-- The 8 family decodes on `n` (R95). -/
def decode8 (x y : Reg) (n : Nibble) : Decoded :=
  if n = 0x0#4 then .instr (.ldReg x y)
  else if n = 0x1#4 then .instr (.orReg x y)
  else if n = 0x2#4 then .instr (.andReg x y)
  else if n = 0x3#4 then .instr (.xorReg x y)
  else if n = 0x4#4 then .instr (.addReg x y)
  else if n = 0x5#4 then .instr (.subReg x y)
  else if n = 0x6#4 then .instr (.shr x y)
  else if n = 0x7#4 then .instr (.subn x y)
  else if n = 0xE#4 then .instr (.shl x y)
  else .unknown .family8

/-- The E family decodes on `nn` (R96). -/
def decodeE (x : Reg) (nn : Byte) : Decoded :=
  if nn = 0x9E#8 then .instr (.skp x)
  else if nn = 0xA1#8 then .instr (.sknp x)
  else .unknown .familyE

/-- The F family decodes on `nn` (R97). -/
def decodeF (x : Reg) (nn : Byte) : Decoded :=
  if nn = 0x07#8 then .instr (.ldVxDT x)
  else if nn = 0x0A#8 then .instr (.ldVxK x)
  else if nn = 0x15#8 then .instr (.ldDTVx x)
  else if nn = 0x18#8 then .instr (.ldSTVx x)
  else if nn = 0x1E#8 then .instr (.addI x)
  else if nn = 0x29#8 then .instr (.ldF x)
  else if nn = 0x33#8 then .instr (.ldB x)
  else if nn = 0x55#8 then .instr (.ldStore x)
  else if nn = 0x65#8 then .instr (.ldLoad x)
  else .unknown .familyF

/-- Major decode on the first nibble (R93), total (R90). 5xyn and 9xyn need n = 0 (R99). -/
def decodeWord (w : Word) : Decoded :=
  let op := fieldOp w
  let x := fieldX w
  let y := fieldY w
  let n := fieldN w
  let nn := fieldNN w
  let nnn := fieldNNN w
  if op = 0x0#4 then decode0 w
  else if op = 0x1#4 then .instr (.jp nnn)
  else if op = 0x2#4 then .instr (.call nnn)
  else if op = 0x3#4 then .instr (.seImm x nn)
  else if op = 0x4#4 then .instr (.sneImm x nn)
  else if op = 0x5#4 then if n = 0x0#4 then .instr (.seReg x y) else .unknown .family5
  else if op = 0x6#4 then .instr (.ldImm x nn)
  else if op = 0x7#4 then .instr (.addImm x nn)
  else if op = 0x8#4 then decode8 x y n
  else if op = 0x9#4 then if n = 0x0#4 then .instr (.sneReg x y) else .unknown .family9
  else if op = 0xA#4 then .instr (.ldI nnn)
  else if op = 0xB#4 then .instr (.jpV0 nnn)
  else if op = 0xC#4 then .instr (.rnd x nn)
  else if op = 0xD#4 then .instr (.drw x y n)
  else if op = 0xE#4 then decodeE x nn
  else decodeF x nn

/-! ### Bytes (R66, R100) -/

/-- The big-endian word of two bytes, the first in bits 15:8 (R66). -/
def wordOfBytes (hi lo : Byte) : Word := hi ++ lo

/-- The byte at the lower address (R66). -/
def highByte (w : Word) : Byte := w.extractLsb' 8 8

/-- The byte at the higher address (R66). -/
def lowByte (w : Word) : Byte := w.extractLsb' 0 8

/-- What a byte string decodes to. -/
inductive BytesDecoded where
  /-- the first two bytes and the bytes after them -/
  | decoded (d : Decoded) (rest : List Byte)
  /-- rejected: fewer than the two bytes of one instruction (R100) -/
  | truncated
deriving DecidableEq, Repr

/-- Decode the first instruction of a byte string: every instruction is exactly two bytes (R100). -/
def decodeBytes : List Byte → BytesDecoded
  | hi :: lo :: rest => .decoded (decodeWord (wordOfBytes hi lo)) rest
  | _ => .truncated

/-! ### The encoder (R103's table of words) -/

/-- The word of an instruction (R103). -/
def encode : Instr → Word
  | .cls => 0x00E0#16
  | .ret => 0x00EE#16
  | .jp nnn => 0x1#4 ++ nnn
  | .call nnn => 0x2#4 ++ nnn
  | .seImm x nn => 0x3#4 ++ x ++ nn
  | .sneImm x nn => 0x4#4 ++ x ++ nn
  | .seReg x y => 0x5#4 ++ x ++ y ++ 0x0#4
  | .ldImm x nn => 0x6#4 ++ x ++ nn
  | .addImm x nn => 0x7#4 ++ x ++ nn
  | .ldReg x y => 0x8#4 ++ x ++ y ++ 0x0#4
  | .orReg x y => 0x8#4 ++ x ++ y ++ 0x1#4
  | .andReg x y => 0x8#4 ++ x ++ y ++ 0x2#4
  | .xorReg x y => 0x8#4 ++ x ++ y ++ 0x3#4
  | .addReg x y => 0x8#4 ++ x ++ y ++ 0x4#4
  | .subReg x y => 0x8#4 ++ x ++ y ++ 0x5#4
  | .shr x y => 0x8#4 ++ x ++ y ++ 0x6#4
  | .subn x y => 0x8#4 ++ x ++ y ++ 0x7#4
  | .shl x y => 0x8#4 ++ x ++ y ++ 0xE#4
  | .sneReg x y => 0x9#4 ++ x ++ y ++ 0x0#4
  | .ldI nnn => 0xA#4 ++ nnn
  | .jpV0 nnn => 0xB#4 ++ nnn
  | .rnd x nn => 0xC#4 ++ x ++ nn
  | .drw x y n => 0xD#4 ++ x ++ y ++ n
  | .skp x => 0xE#4 ++ x ++ 0x9E#8
  | .sknp x => 0xE#4 ++ x ++ 0xA1#8
  | .ldVxDT x => 0xF#4 ++ x ++ 0x07#8
  | .ldVxK x => 0xF#4 ++ x ++ 0x0A#8
  | .ldDTVx x => 0xF#4 ++ x ++ 0x15#8
  | .ldSTVx x => 0xF#4 ++ x ++ 0x18#8
  | .addI x => 0xF#4 ++ x ++ 0x1E#8
  | .ldF x => 0xF#4 ++ x ++ 0x29#8
  | .ldB x => 0xF#4 ++ x ++ 0x33#8
  | .ldStore x => 0xF#4 ++ x ++ 0x55#8
  | .ldLoad x => 0xF#4 ++ x ++ 0x65#8

/-! ### The opcode table -/

/-- A row of spec/opcode_table.json: the row's words are those with `w & mask = value`. -/
structure OpRow where
  mnemonic : String
  value : Word
  mask : Word
deriving DecidableEq, Repr

/-- The row each constructor stands for, value and mask as the table has them. -/
def Instr.row : Instr → OpRow
  | .cls => ⟨"CLS", 0x00E0, 0xFFFF⟩
  | .ret => ⟨"RET", 0x00EE, 0xFFFF⟩
  | .jp _ => ⟨"JP_nnn", 0x1000, 0xF000⟩
  | .call _ => ⟨"CALL_nnn", 0x2000, 0xF000⟩
  | .seImm _ _ => ⟨"SE_Vx__nn", 0x3000, 0xF000⟩
  | .sneImm _ _ => ⟨"SNE_Vx__nn", 0x4000, 0xF000⟩
  | .seReg _ _ => ⟨"SE_Vx__Vy", 0x5000, 0xF00F⟩
  | .ldImm _ _ => ⟨"LD_Vx__nn", 0x6000, 0xF000⟩
  | .addImm _ _ => ⟨"ADD_Vx__nn", 0x7000, 0xF000⟩
  | .ldReg _ _ => ⟨"LD_Vx__Vy", 0x8000, 0xF00F⟩
  | .orReg _ _ => ⟨"OR_Vx__Vy", 0x8001, 0xF00F⟩
  | .andReg _ _ => ⟨"AND_Vx__Vy", 0x8002, 0xF00F⟩
  | .xorReg _ _ => ⟨"XOR_Vx__Vy", 0x8003, 0xF00F⟩
  | .addReg _ _ => ⟨"ADD_Vx__Vy", 0x8004, 0xF00F⟩
  | .subReg _ _ => ⟨"SUB_Vx__Vy", 0x8005, 0xF00F⟩
  | .shr _ _ => ⟨"SHR_Vx__Vy", 0x8006, 0xF00F⟩
  | .subn _ _ => ⟨"SUBN_Vx__Vy", 0x8007, 0xF00F⟩
  | .shl _ _ => ⟨"SHL_Vx__Vy", 0x800E, 0xF00F⟩
  | .sneReg _ _ => ⟨"SNE_Vx__Vy", 0x9000, 0xF00F⟩
  | .ldI _ => ⟨"LD_I__nnn", 0xA000, 0xF000⟩
  | .jpV0 _ => ⟨"JP_V0__nnn", 0xB000, 0xF000⟩
  | .rnd _ _ => ⟨"RND_Vx__nn", 0xC000, 0xF000⟩
  | .drw _ _ _ => ⟨"DRW_Vx__Vy__n", 0xD000, 0xF000⟩
  | .skp _ => ⟨"SKP_Vx", 0xE09E, 0xF0FF⟩
  | .sknp _ => ⟨"SKNP_Vx", 0xE0A1, 0xF0FF⟩
  | .ldVxDT _ => ⟨"LD_Vx__DT", 0xF007, 0xF0FF⟩
  | .ldVxK _ => ⟨"LD_Vx__K", 0xF00A, 0xF0FF⟩
  | .ldDTVx _ => ⟨"LD_DT__Vx", 0xF015, 0xF0FF⟩
  | .ldSTVx _ => ⟨"LD_ST__Vx", 0xF018, 0xF0FF⟩
  | .addI _ => ⟨"ADD_I__Vx", 0xF01E, 0xF0FF⟩
  | .ldF _ => ⟨"LD_F__Vx", 0xF029, 0xF0FF⟩
  | .ldB _ => ⟨"LD_B__Vx", 0xF033, 0xF0FF⟩
  | .ldStore _ => ⟨"LD__I___Vx", 0xF055, 0xF0FF⟩
  | .ldLoad _ => ⟨"LD_Vx___I", 0xF065, 0xF0FF⟩

/-- A word belongs to a row of the table. -/
def OpRow.matches (r : OpRow) (w : Word) : Bool := w &&& r.mask == r.value

/-! ### The host's decoder query -/

/-- The low `nbits` bits of `w` as the instruction word, every bit above them 0. -/
def tableWord (nbits w : Nat) : Word := BitVec.ofNat 16 (w % 2 ^ nbits)

/-- The instruction the decoder reads from a table word stored as the hardware stores it, high byte first (R66); none for an unknown word (R98). -/
def decodeTableWord (nbits w : Nat) : Option Instr :=
  match decodeBytes [highByte (tableWord nbits w), lowByte (tableWord nbits w)] with
  | .decoded (.instr i) _ => some i
  | .decoded (.unknown _) _ => none
  | .truncated => none

end Sys2Proof
end

