-- ==== Sys2Proof/Machine/Flags.lean ====
section
/-! DEFINITION. Every flag computation of the ISA (10_state.md R21; 42_alu.md R157 to R161; 43_index_random.md R181). The collision flag is `Drawing.hit` of Machine/Plane.lean (R193). -/

namespace Sys2Proof.Machine

/-- "A flag write stores 0 or 1 into `V[15]` and replaces the whole byte" (R21). -/
def flagByte (f : Bool) : Byte := if f then 0x01 else 0x00

/-- 1 when `minuend − subtrahend` needs no borrow (R157, R158). -/
def noBorrow (minuend subtrahend : Byte) : Bool := decide (subtrahend.toNat ≤ minuend.toNat)

/-- The bit a right shift by one shifts out, `v & 1` (R159). -/
def shiftedOutRight (v : Byte) : Bool := v.getLsbD 0

/-- The bit a left shift by one shifts out, `(v >> 7) & 1` (R160). -/
def shiftedOutLeft (v : Byte) : Bool := v.getLsbD 7

/-- 1 when the exact sum exceeds the 12-bit range (R181). -/
def indexOverflow (sum : Nat) : Bool := decide (0xFFF < sum)

end Sys2Proof.Machine
end

