-- ==== Sys2Proof/Machine/Plane.lean ====
section
/-! DEFINITION. Geometry, cells and the XOR rasterizer (44_display.md R190 to R194). -/

namespace Sys2Proof.Machine

/-- `W` (R190). -/
def planeWidth : Geometry → Nat
  | .standard => 64
  | .extended => 128

/-- `H` (R190). -/
def planeHeight : Geometry → Nat
  | .standard => 32
  | .extended => 64

/-- The place of cell (x, y) in a flat copy, row-major (R265). -/
def cellIndex (g : Geometry) (x y : Nat) : Nat := y * planeWidth g + x

/-- `P(x, y)` (R28). -/
def cell (g : Geometry) (p : Plane) (x y : Nat) : Bool := p.getLsbD (cellIndex g x y)

/-- `P(x, y) <- P(x, y) ^ 1` (R192). -/
def toggle (g : Geometry) (p : Plane) (x y : Nat) : Plane := p ^^^ BitVec.twoPow 8192 (cellIndex g x y)

/-- No bit is set outside the W × H cells of the geometry. -/
def planeWf (g : Geometry) (p : Plane) : Bool := decide (p.toNat < 2 ^ (planeWidth g * planeHeight g))

/-- What a draw carries along: the plane, the collision and whether a cell was toggled (R192's `hit` and `changed`). -/
structure Drawing where
  plane : Plane
  hit : Bool
  changed : Bool
deriving DecidableEq, Repr

/-- One set sprite bit at (x, y): dropped past the right edge, else it toggles its cell, and hits if the cell was lit (R192). -/
def drawBit (g : Geometry) (x y : Nat) (d : Drawing) : Drawing :=
  if x < planeWidth g then
    { plane := toggle g d.plane x y, hit := d.hit || cell g d.plane x y, changed := true }
  else d

/-- One sprite row from column `x0`: bit 7 is column `x0`, bit 0 is column `x0 + 7` (R192, D22). -/
def drawRow (g : Geometry) (b : Byte) (x0 y : Nat) (d : Drawing) : Drawing :=
  (List.range 8).foldl (fun d c => if b.getLsbD (7 - c) then drawBit g (x0 + c) y d else d) d

/-- The rows from row `y` down, stopping at the bottom edge (R192). -/
def drawRows (g : Geometry) (x0 : Nat) : List Byte → Nat → Drawing → Drawing
  | [], _, d => d
  | b :: bs, y, d => if planeHeight g ≤ y then d else drawRows g x0 bs (y + 1) (drawRow g b x0 y d)

/-- `PlaneDraw(bytes, xs, ys)`: the start wraps, the rest is clipped (R192). -/
def drawSprite (g : Geometry) (p : Plane) (bytes : List Byte) (xs ys : Byte) : Drawing :=
  drawRows g (xs.toNat % planeWidth g) bytes (ys.toNat % planeHeight g) { plane := p, hit := false, changed := false }

end Sys2Proof.Machine
end

