-- ==== Sys2Proof/Machine/Memory.lean ====
section
/-! DEFINITION. The default font, and the memory array as a canonical list of cells (20_memory.md R60, R61; 92_eei_decisions.md D7, D25). -/

namespace Sys2Proof.Machine

/-- The five rows of a glyph, the top one first (R281). -/
def glyph (r0 r1 r2 r3 r4 : Byte) : Vector Byte 5 := #v[r0, r1, r2, r3, r4]

/-- The default `FONT`, one row a glyph, 0 to F (D25, from general knowledge; log 3). -/
def defaultFont : Vector Byte 80 :=
  glyph 0xF0 0x90 0x90 0x90 0xF0 ++
  glyph 0x20 0x60 0x20 0x20 0x70 ++
  glyph 0xF0 0x10 0xF0 0x80 0xF0 ++
  glyph 0xF0 0x10 0xF0 0x10 0xF0 ++
  glyph 0x90 0x90 0xF0 0x10 0x10 ++
  glyph 0xF0 0x80 0xF0 0x10 0xF0 ++
  glyph 0xF0 0x80 0xF0 0x90 0xF0 ++
  glyph 0xF0 0x10 0x20 0x40 0x40 ++
  glyph 0xF0 0x90 0xF0 0x90 0xF0 ++
  glyph 0xF0 0x90 0xF0 0x10 0xF0 ++
  glyph 0xF0 0x90 0xF0 0x90 0x90 ++
  glyph 0xE0 0x90 0xE0 0x90 0xE0 ++
  glyph 0xF0 0x80 0x80 0x80 0xF0 ++
  glyph 0xE0 0x90 0x90 0x90 0xE0 ++
  glyph 0xF0 0x80 0xF0 0x80 0xF0 ++
  glyph 0xF0 0x80 0xF0 0x80 0x80

/-- What an unlisted address reads as: the contents at reset with the default font and no program (R35, R61; log 4). -/
def background (a : Nat) : Byte :=
  if fontBase ≤ a then defaultFont.toList.getD (a - fontBase) 0x00 else 0x00

/-- The cells that differ from `background`, addresses strictly rising. -/
abbrev Memory := List Host.Cell

/-- The byte at an address. -/
def Memory.read : Memory → Nat → Byte
  | [], a => background a
  | (k, b) :: m, a => if a = k then b else Memory.read m a

/-- List a cell, in its place by address. -/
def Memory.insert (a : Nat) (b : Byte) : Memory → Memory
  | [] => [(a, b)]
  | (k, c) :: m =>
    if a < k then (a, b) :: (k, c) :: m
    else if a = k then (a, b) :: m
    else (k, c) :: Memory.insert a b m

/-- Unlist an address. -/
def Memory.erase (a : Nat) (m : Memory) : Memory := m.filter fun c => c.1 ≠ a

/-- `M[a] <- b`, in canonical form. -/
def Memory.write (m : Memory) (a : Nat) (b : Byte) : Memory :=
  if b = background a then m.erase a else Memory.insert a b m

/-- `[M[a], M[a+1], ..., M[a+n-1]]` (R64). -/
def Memory.readBlock (m : Memory) (a n : Nat) : List Byte :=
  (List.range n).map fun k => m.read (a + k)

/-- `for k in 0..n-1: M[a+k] <- bytes[k]` (R64, R65). -/
def Memory.writeBlock (m : Memory) (a : Nat) : List Byte → Memory
  | [] => m
  | b :: bs => Memory.writeBlock (m.write a b) (a + 1) bs

/-- The cells from address `lo` on: rising, inside memory, none equal to the background. -/
def Memory.wfFrom (lo : Nat) : Memory → Bool
  | [] => true
  | (k, b) :: m => decide (lo ≤ k) && decide (k < memSize) && (b != background k) && Memory.wfFrom (k + 1) m

/-- The canonical form. -/
def Memory.wf (m : Memory) : Bool := m.wfFrom 0

end Sys2Proof.Machine
end

