-- ==== Sys2Proof/Machine/State.lean ====
section
/-! DEFINITION. The architectural state (10_state.md R20 to R36), the ways a step can stop, and the state at reset. -/

namespace Sys2Proof.Machine

/-- The fault causes (60_exceptions.md R240). -/
inductive FaultCause where
  /-- code 0, raised by the loader before execution (R283) -/
  | loadOversize
  /-- code 1, raised by the fetch (R66) -/
  | fetchRange
  /-- code 2, raised by DRW and LD Vx,[I] (R195, R226) -/
  | readRange
  /-- code 3, raised by LD B,Vx and LD [I],Vx (R223, R225) -/
  | writeRange
  /-- code 4, raised by CALL (R123) -/
  | stackOverflow
deriving DecidableEq, Repr

/-- The fault record (R242). -/
structure FaultRecord where
  cause : FaultCause
  /-- `pc0`, the address of the faulting instruction; 0x200 for `LOAD_OVERSIZE` -/
  pc : Word
  addr : Word
  len : Nat
  /-- the fetched word; none when no word was fetched -/
  opcode : Option Word
deriving DecidableEq, Repr

/-- One `Present(W, H, P)` event (R265). Cell (x, y) is bit `y × W + x` of `cells`. -/
structure Present where
  width : Nat
  height : Nat
  cells : Plane
deriving DecidableEq, Repr

/-- The whole state of the block. -/
structure State where
  /-- `V[0]`..`V[15]` (R20, R21) -/
  v : Vector Byte 16
  /-- the index register (R22) -/
  i : Word
  /-- the program counter (R23) -/
  pc : Word
  /-- the call stack, the last entry on top (R25) -/
  stack : List Word
  /-- the delay timer (R26) -/
  dt : Byte
  /-- the sound timer (R27) -/
  st : Byte
  /-- memory (R36, R60) -/
  mem : Memory
  /-- the display plane (R28): cell (x, y) is bit `y × W + x` (log 17) -/
  plane : Plane
  /-- a flush is owed (R29) -/
  dirty : Bool
  /-- the halted state (R31) -/
  halted : Bool
  /-- the fault record (R31, R242) -/
  fault : Option FaultRecord
  /-- the construction parameters (R30) -/
  cfg : Config
  /-- `t_insn`, microseconds (R33, R255) -/
  tInsn : Nat
  /-- `t_frame`, microseconds (R33, R255) -/
  tFrame : Nat
  /-- MODEL: what the input ports show to the next fire (R260, R261, R264; log 5) -/
  input : Input
  /-- MODEL: inputs already decided for later fires, the next first (log 5) -/
  script : List Input
  /-- MODEL: how many free inputs were drawn (log 5) -/
  freeCount : Nat
  /-- MODEL: the events the present port has emitted, the newest first (R265; log 9) -/
  presents : List Present
deriving DecidableEq, Repr

/-- Why a step is the outcome `fault`. -/
inductive Fault where
  /-- Raised by `step` on a halted block, with the record its fault port shows: "No step exists from a halted state" (00_scope.md R11, 60_exceptions.md R243). Safe: the hardware does nothing more either. -/
  | halted (record : Option FaultRecord)
deriving DecidableEq, Repr

/-- Why a step is the outcome `refused`. "No instruction is refused" (R11). -/
inductive Refusal where
  /-- Raised by an arm of `exec` whose instruction has no meaning yet; no arm does. Safe. -/
  | notModelled (mnemonic : String)
deriving DecidableEq, Repr

/-- The construction parameters of `State.reset`: those the test vectors of 95_test_vectors.md take. The spec leaves them OPEN (D9, D25, D28 to D30). DESIGN CHOICE, unsafe (log 2). -/
def defaultConfig : Config :=
  { geometry := .standard, shiftInPlace := true, tickUs := 1428, stackDepth := 16, font := defaultFont }

/-- The state just after construction with the empty program (R35, R280): what `State.construct` gives for it, written out. The input fields are the model's own (log 5). -/
def State.reset : State :=
  { v := Vector.replicate 16 0x00
    i := 0x0000
    pc := 0x0200
    stack := []
    dt := 0x00
    st := 0x00
    mem := []
    plane := 0
    dirty := false
    halted := false
    fault := none
    cfg := defaultConfig
    tInsn := Config.startTimeUs
    tFrame := Config.startTimeUs
    input := Config.freeInput 0
    script := []
    freeCount := 1
    presents := [] }

end Sys2Proof.Machine
end

