-- ==== Sys2Proof/Machine/Ops.lean ====
section
/-! DEFINITION. The primitives of 00_scope.md R10 over the state: registers, stack, memory blocks, plane, keypad, random byte, and raising a fault. -/

namespace Sys2Proof.Machine

/-! ### Registers -/

/-- `V[r]` (R20). -/
def State.getV (s : State) (r : Reg) : Byte := s.v[r.toNat]'r.isLt

/-- `V[r] <- b` (R20). -/
def State.setV (s : State) (r : Reg) (b : Byte) : State := { s with v := s.v.set r.toNat b r.isLt }

/-- VF, the flag register `V[15]` (R21). -/
def regVF : Reg := 15

/-- `V[15] <- f`, 0 or 1 (R21). -/
def State.setFlag (s : State) (f : Bool) : State := s.setV regVF (flagByte f)

/-- `V[r] <- b`, then the flag, so that VF holds the flag when `r = 15` (R21, D13). -/
def State.setVWithFlag (s : State) (r : Reg) (b : Byte) (f : Bool) : State := (s.setV r b).setFlag f

/-- `I <- a` (R22). -/
def State.setI (s : State) (a : Word) : State := { s with i := a }

/-- `DT <- b` (R26). -/
def State.setDT (s : State) (b : Byte) : State := { s with dt := b }

/-- `ST <- b` (R27). -/
def State.setST (s : State) (b : Byte) : State := { s with st := b }

/-- `V[k] <- bytes[0]`, `V[k+1] <- bytes[1]`, ...: the loop of LD Vx,[I] (R226). -/
def State.loadRegs (s : State) : List Byte → Nat → State
  | [], _ => s
  | b :: bs, k => State.loadRegs (s.setV (BitVec.ofNat 4 k) b) bs (k + 1)

/-! ### Program counter -/

/-- `pc <- a` (R24). -/
def State.setPc (s : State) (a : Word) : State := { s with pc := a }

/-- `pc0`: while an instruction executes, `pc` holds `pc0 + 2` (R23, R90; log 14). -/
def State.insnAddr (s : State) : Word := s.pc - 2

/-- `skip`, when the condition holds: `pc <- pc + 2` (R10). -/
def State.skipIf (s : State) (c : Bool) : State := if c then s.setPc (s.pc + 2) else s

/-! ### Call stack (R25) -/

/-- `Depth()` -/
def State.depth (s : State) : Nat := s.stack.length

/-- `Push(v)` -/
def State.push (s : State) (a : Word) : State := { s with stack := s.stack ++ [a] }

/-- `Pop()` and `pc <-` its value; nothing on an empty stack (R121). -/
def State.popToPc (s : State) : State :=
  match s.stack.getLast? with
  | none => s
  | some a => { s with stack := s.stack.dropLast, pc := a }

/-! ### Faults (R240 to R243) -/

/-- `raise Fault(cause, info)`: the record is stored and the block halts; nothing else changes (R241, R243). -/
def State.raise (s : State) (cause : FaultCause) (pc0 addr : Word) (len : Nat) (opcode : Option Word) : State :=
  { s with halted := true, fault := some { cause := cause, pc := pc0, addr := addr, len := len, opcode := opcode } }

/-- A fault raised by an executing instruction: `pc0` and the fetched word stand in the record (R242; logs 13, 14). -/
def State.raiseIn (s : State) (insn : Instr) (cause : FaultCause) (addr : Word) (len : Nat) : State :=
  s.raise cause s.insnAddr addr len (some (encode insn))

/-! ### Memory blocks (R64) -/

/-- The range check: no `a + n > MEM_SIZE` (R64, R66). -/
def inRange (a : Word) (n : Nat) : Bool := decide (a.toNat + n ≤ memSize)

/-- `MemRead(a, n)`; none when it faults. -/
def State.memRead (s : State) (a : Word) (n : Nat) : Option (List Byte) :=
  if inRange a n then some (s.mem.readBlock a.toNat n) else none

/-- `MemWrite(a, n, bytes)` with `n = len(bytes)`; none when it faults. -/
def State.memWrite (s : State) (a : Word) (bytes : List Byte) : Option State :=
  if inRange a bytes.length then some { s with mem := s.mem.writeBlock a.toNat bytes } else none

/-- `MemWrite(I, n, bytes)` for an instruction: a failing write raises `WRITE_RANGE` and writes nothing (R64, R240). -/
def State.storeBlock (s : State) (insn : Instr) (bytes : List Byte) : State :=
  match s.memWrite s.i bytes with
  | some t => t
  | none => s.raiseIn insn .writeRange s.i bytes.length

/-! ### Display plane (44_display.md) -/

/-- `PlaneClear()` (R191). -/
def State.planeClear (s : State) : State := { s with plane := 0, dirty := true }

/-- `PlaneDraw(bytes, xs, ys)` and `V[15] <- hit` (R192 to R195). -/
def State.planeDraw (s : State) (bytes : List Byte) (xs ys : Byte) : State :=
  let d := drawSprite s.cfg.geometry s.plane bytes xs ys
  { s with plane := d.plane, dirty := s.dirty || d.changed }.setFlag d.hit

/-- `PlaneFlush()`: present and clear `dirty`, only if it is set (R196, R265). -/
def State.planeFlush (s : State) : State :=
  if s.dirty then
    { s with
      dirty := false
      presents :=
        { width := planeWidth s.cfg.geometry, height := planeHeight s.cfg.geometry, cells := s.plane } :: s.presents }
  else s

/-! ### The environment (60_exceptions.md R261 to R264) -/

/-- `KeyDown(k) = (k ≤ 0xF) and key_down[k] = 1` (R262). -/
def State.keyDown (s : State) (k : Byte) : Bool := decide (k.toNat ≤ 0xF) && s.input.keyDown.getLsbD k.toNat

/-- The codes of the keys that are down. -/
def downKeys (keys : BitVec 16) : List Nat := (List.range 16).filter fun k => keys.getLsbD k

/-- `AnyKey()`: none when no key is down, else the environment's pick among the down keys (R263; log 7). -/
def State.anyKey (s : State) : Option Byte :=
  ((downKeys s.input.keyDown)[s.input.keyPick % (downKeys s.input.keyDown).length]?).map fun k => BitVec.ofNat 8 k

/-- `RandomByte()` (R264). -/
def State.randomByte (s : State) : Byte := s.input.rand

/-- The environment moves on to the next fire: the next scripted input, or a free one when the script is empty (R253, R261; log 5). -/
def State.nextInput (s : State) : State :=
  match s.script with
  | inp :: rest => { s with input := inp, script := rest }
  | [] => { s with input := Config.freeInput s.freeCount, freeCount := s.freeCount + 1 }

/-- Decide the inputs of the fires to come: the first is what the ports show now, the others are scripted. For setting up a run; no step uses it. -/
def State.withInputs (s : State) : List Input → State
  | [] => s
  | inp :: rest => { s with input := inp, script := rest }

/-! ### Outcomes -/

/-- Apply a change of state to a next state; a fault or a refusal stays as it is. -/
def onNext (f : State → State) : Host.Outcome State Fault Refusal → Host.Outcome State Fault Refusal
  | .next s => .next (f s)
  | .fault r => .fault r
  | .refused r => .refused r

end Sys2Proof.Machine
end

