-- ==== Sys2Proof/Machine/Operands.lean ====
section
/-! DEFINITION. Operand forms: how fields and registers become the values an instruction works on (30_encoding.md R92 and the instruction rules). -/

namespace Sys2Proof.Machine

/-- `zext_16(nnn)` (R92). -/
def zextAddr (nnn : Addr) : Word := nnn.setWidth 16

/-- `zext_16(nnn) + V[0]`, no 12-bit mask (R124). -/
def jumpV0Target (s : State) (nnn : Addr) : Word := zextAddr nnn + (s.getV 0).setWidth 16

/-- The source of a shift: `V[x]` in place, else `V[y]` (R159, R160). -/
def shiftSource (s : State) (x y : Reg) : Byte := if s.cfg.shiftInPlace then s.getV x else s.getV y

/-- `I + V[x]`, the exact integer sum (R181). -/
def indexSum (s : State) (x : Reg) : Nat := s.i.toNat + (s.getV x).toNat

/-- `FONT_BASE + 5 * V[x]`, no nibble mask (R224, D17). -/
def glyphAddress (s : State) (x : Reg) : Word := BitVec.ofNat 16 (fontBase + glyphBytes * (s.getV x).toNat)

/-- Hundreds, tens, ones (R223). -/
def bcdDigits (v : Byte) : List Byte :=
  [BitVec.ofNat 8 (v.toNat / 100), BitVec.ofNat 8 (v.toNat / 10 % 10), BitVec.ofNat 8 (v.toNat % 10)]

/-- How many registers a block form names: `x + 1`, V0 to Vx inclusive (R225, R226). -/
def blockLength (x : Reg) : Nat := x.toNat + 1

/-- `[V[0], V[1], ..., V[x]]` (R225). -/
def registerBlock (s : State) (x : Reg) : List Byte :=
  (List.range (blockLength x)).map fun k => s.getV (BitVec.ofNat 4 k)

end Sys2Proof.Machine
end

