-- ==== Sys2Proof/Machine/Alu.lean ====
section
/-! DEFINITION. Register assignment and arithmetic (42_alu.md R150 to R161). Operands are read before any write; the flag is written last. -/

namespace Sys2Proof.Machine

/-- LD Vx, nn (R150). -/
def execLdImm (x : Reg) (nn : Byte) (s : State) : Host.Outcome State Fault Refusal := .next (s.setV x nn)

/-- ADD Vx, nn: wraps, no flag (R151). -/
def execAddImm (x : Reg) (nn : Byte) (s : State) : Host.Outcome State Fault Refusal :=
  .next (s.setV x (s.getV x + nn))

/-- LD Vx, Vy (R152). -/
def execLdReg (x y : Reg) (s : State) : Host.Outcome State Fault Refusal := .next (s.setV x (s.getV y))

/-- OR Vx, Vy: VF untouched unless x = 15 (R153, D15). -/
def execOrReg (x y : Reg) (s : State) : Host.Outcome State Fault Refusal :=
  .next (s.setV x (s.getV x ||| s.getV y))

/-- AND Vx, Vy (R154, D15). -/
def execAndReg (x y : Reg) (s : State) : Host.Outcome State Fault Refusal :=
  .next (s.setV x (s.getV x &&& s.getV y))

/-- XOR Vx, Vy (R155, D15). -/
def execXorReg (x y : Reg) (s : State) : Host.Outcome State Fault Refusal :=
  .next (s.setV x (s.getV x ^^^ s.getV y))

/-- ADD Vx, Vy: wraps, no carry flag (R156). -/
def execAddReg (x y : Reg) (s : State) : Host.Outcome State Fault Refusal :=
  .next (s.setV x (s.getV x + s.getV y))

/-- SUB Vx, Vy: `Vx − Vy`, VF = no borrow (R157). -/
def execSubReg (x y : Reg) (s : State) : Host.Outcome State Fault Refusal :=
  .next (s.setVWithFlag x (s.getV x - s.getV y) (noBorrow (s.getV x) (s.getV y)))

/-- SUBN Vx, Vy: `Vy − Vx`, VF = no borrow (R158). -/
def execSubn (x y : Reg) (s : State) : Host.Outcome State Fault Refusal :=
  .next (s.setVWithFlag x (s.getV y - s.getV x) (noBorrow (s.getV y) (s.getV x)))

/-- SHR Vx, Vy: VF = the bit shifted out (R159). -/
def execShr (x y : Reg) (s : State) : Host.Outcome State Fault Refusal :=
  .next (s.setVWithFlag x (shiftSource s x y >>> 1) (shiftedOutRight (shiftSource s x y)))

/-- SHL Vx, Vy: VF = the bit shifted out (R160). -/
def execShl (x y : Reg) (s : State) : Host.Outcome State Fault Refusal :=
  .next (s.setVWithFlag x (shiftSource s x y <<< 1) (shiftedOutLeft (shiftSource s x y)))

end Sys2Proof.Machine
end

