-- ==== Sys2Proof/Machine/Display.lean ====
section
/-! DEFINITION. The draw instruction (44_display.md R195). -/

namespace Sys2Proof.Machine

/-- DRW Vx, Vy, n: all n bytes are read before any cell changes; a failing read raises `READ_RANGE` and draws nothing (R195, D21, D23). -/
def execDrw (x y : Reg) (n : Nibble) (s : State) : Host.Outcome State Fault Refusal :=
  .next (match s.memRead s.i n.toNat with
    | some bytes => s.planeDraw bytes (s.getV x) (s.getV y)
    | none => s.raiseIn (.drw x y n) .readRange s.i n.toNat)

end Sys2Proof.Machine
end

