-- ==== Sys2Proof/Machine/Flow.lean ====
section
/-! DEFINITION. Control transfer: CLS, RET, JP, CALL, JP V0 (40_flow.md R120 to R124). At entry `pc = pc0 + 2`. -/

namespace Sys2Proof.Machine

/-- CLS (R120). -/
def execCls (s : State) : Host.Outcome State Fault Refusal := .next s.planeClear

/-- RET: a no-op on an empty stack, `pc` staying `pc0 + 2` (R121, D10). -/
def execRet (s : State) : Host.Outcome State Fault Refusal := .next s.popToPc

/-- JP nnn: an odd target is taken as it is (R122). DEDUCED: R67's "arises only" says otherwise of JP (log 25). -/
def execJp (nnn : Addr) (s : State) : Host.Outcome State Fault Refusal := .next (s.setPc (zextAddr nnn))

/-- CALL nnn: `STACK_OVERFLOW` on a full stack, else push `pc0 + 2` and jump, to an odd target as well (R123; log 16). DEDUCED: R67's "arises only" says otherwise of CALL (log 25). -/
def execCall (nnn : Addr) (s : State) : Host.Outcome State Fault Refusal :=
  .next (if s.depth < s.cfg.stackDepth then (s.push s.pc).setPc (zextAddr nnn)
    else s.raiseIn (.call nnn) .stackOverflow s.insnAddr 0)

/-- JP V0, nnn (R124). -/
def execJpV0 (nnn : Addr) (s : State) : Host.Outcome State Fault Refusal := .next (s.setPc (jumpV0Target s nnn))

end Sys2Proof.Machine
end

