-- ==== Sys2Proof/Machine/Index.lean ====
section
/-! DEFINITION. Index register and random byte (43_index_random.md R180 to R182). -/

namespace Sys2Proof.Machine

/-- LD I, nnn (R180). -/
def execLdI (nnn : Addr) (s : State) : Host.Outcome State Fault Refusal := .next (s.setI (zextAddr nnn))

/-- ADD I, Vx: `I` wraps at 16 bits, the flag comes from the exact sum (R181, D14). -/
def execAddI (x : Reg) (s : State) : Host.Outcome State Fault Refusal :=
  .next ((s.setI (BitVec.ofNat 16 (indexSum s x))).setFlag (indexOverflow (indexSum s x)))

/-- RND Vx, nn (R182). -/
def execRnd (x : Reg) (nn : Byte) (s : State) : Host.Outcome State Fault Refusal :=
  .next (s.setV x (s.randomByte &&& nn))

end Sys2Proof.Machine
end

