-- ==== Sys2Proof/Machine/Keypad.lean ====
section
/-! DEFINITION. Keypad instructions (45_keypad.md R210 to R212). -/

namespace Sys2Proof.Machine

/-- SKP Vx (R210). -/
def execSkp (x : Reg) (s : State) : Host.Outcome State Fault Refusal := .next (s.skipIf (s.keyDown (s.getV x)))

/-- SKNP Vx (R211). -/
def execSknp (x : Reg) (s : State) : Host.Outcome State Fault Refusal := .next (s.skipIf (!s.keyDown (s.getV x)))

/-- LD Vx, K: with no key down `pc` goes back to `pc0`, so that the next engine step executes it again (R212, D19). -/
def execLdVxK (x : Reg) (s : State) : Host.Outcome State Fault Refusal :=
  .next (match s.anyKey with
    | some k => s.setV x k
    | none => s.setPc s.insnAddr)

end Sys2Proof.Machine
end

