-- ==== Sys2Proof/Machine/Timers.lean ====
section
/-! DEFINITION. Timer moves, BCD, font lookup, register blocks (46_timers_bcd_font_block.md R220 to R226). -/

namespace Sys2Proof.Machine

/-- LD Vx, DT (R220). -/
def execLdVxDT (x : Reg) (s : State) : Host.Outcome State Fault Refusal := .next (s.setV x s.dt)

/-- LD DT, Vx (R221). -/
def execLdDTVx (x : Reg) (s : State) : Host.Outcome State Fault Refusal := .next (s.setDT (s.getV x))

/-- LD ST, Vx (R222). -/
def execLdSTVx (x : Reg) (s : State) : Host.Outcome State Fault Refusal := .next (s.setST (s.getV x))

/-- LD B, Vx: hundreds at I, tens at I+1, ones at I+2 (R223). -/
def execLdB (x : Reg) (s : State) : Host.Outcome State Fault Refusal :=
  .next (s.storeBlock (.ldB x) (bcdDigits (s.getV x)))

/-- LD F, Vx (R224). -/
def execLdF (x : Reg) (s : State) : Host.Outcome State Fault Refusal := .next (s.setI (glyphAddress s x))

/-- LD [I], Vx: `I` is unchanged (R225, D20). -/
def execLdStore (x : Reg) (s : State) : Host.Outcome State Fault Refusal :=
  .next (s.storeBlock (.ldStore x) (registerBlock s x))

/-- LD Vx, [I]: `I` is unchanged (R226, D20). -/
def execLdLoad (x : Reg) (s : State) : Host.Outcome State Fault Refusal :=
  .next (match s.memRead s.i (blockLength x) with
    | some bytes => s.loadRegs bytes 0
    | none => s.raiseIn (.ldLoad x) .readRange s.i (blockLength x))

end Sys2Proof.Machine
end

