-- ==== Sys2Proof/Machine/Scheduler.lean ====
section
/-! DEFINITION. The engine step, the frame step and the dual-rate scheduler (30_encoding.md R90; 60_exceptions.md R250 to R255). -/

namespace Sys2Proof.Machine

/-! ### The engine step (R90) -/

/-- `Fetch16(a)`: the big-endian word at `a`; none when `a + 2 > MEM_SIZE` (R66). -/
def State.fetch16 (s : State) (a : Word) : Option Word :=
  if inRange a 2 then some (wordOfBytes (s.mem.read a.toNat) (s.mem.read (a.toNat + 1))) else none

/-- `Execute(Decode(w), w)`: an unknown opcode changes nothing (R90, R98). -/
def executeWord (w : Word) (s : State) : Host.Outcome State Fault Refusal :=
  match decodeWord w with
  | .instr i => exec i s
  | .unknown _ => .next s

/-- `EngineStep()`: fetch, advance `pc` by 2, decode, execute; a failing fetch leaves `pc` (R90, R241). -/
def engineStep (s : State) : Host.Outcome State Fault Refusal :=
  match s.fetch16 s.pc with
  | none => .next (s.raise .fetchRange s.pc s.pc 2 none)
  | some w => executeWord w (s.setPc (s.pc + 2))

/-! ### The frame step (R252) -/

/-- `FrameStep()`: both timers decrement modulo 256, then the plane is flushed. -/
def frameStep (s : State) : State := ((s.setDT (s.dt - 1)).setST (s.st - 1)).planeFlush

/-! ### Fires (R251, R252, R255) -/

/-- `t_insn <- t_insn + TICK_US` (R255). -/
def State.advanceInsnClock (s : State) : State := { s with tInsn := s.tInsn + s.cfg.tickUs }

/-- `t_frame <- t_frame + FRAME_US` (R255). -/
def State.advanceFrameClock (s : State) : State := { s with tFrame := s.tFrame + frameUs }

/-- One fire of the instruction clock: its timestamp advances, one engine step runs, the environment moves on. -/
def instructionFire (s : State) : Host.Outcome State Fault Refusal :=
  onNext State.nextInput (engineStep s.advanceInsnClock)

/-- One fire of the frame clock: its timestamp advances, one frame step runs, the environment moves on. -/
def frameFire (s : State) : State := (frameStep s.advanceFrameClock).nextInput

/-- The fire of the clock that the environment lets fire (R253: every interleaving is admitted; log 6). -/
def fire (s : State) : Host.Outcome State Fault Refusal :=
  match s.input.clock with
  | .instruction => instructionFire s
  | .frame => .next (frameFire s)

/-! ### The reference loop (R255) -/

/-- `t - t_insn ≥ TICK_US`, and the block is not halted (R251, R255). -/
def insnMatured (t : Nat) (s : State) : Bool := !s.halted && decide (s.tInsn + s.cfg.tickUs ≤ t)

/-- `t - t_frame ≥ FRAME_US`, and the block is not halted (R252, R255). -/
def frameMatured (t : Nat) (s : State) : Bool := !s.halted && decide (s.tFrame + frameUs ≤ t)

/-- The frame half of a loop iteration. -/
def fireFrameIfMatured (t : Nat) (s : State) : State := if frameMatured t s then frameFire s else s

/-- One iteration of the reference scheduler's loop at wall time `t`: each clock that has matured fires once, the instruction clock first (R255, D26, D27). Not used by `step`, which tracks no wall time (R253; log 22). -/
def loopIteration (t : Nat) (s : State) : Host.Outcome State Fault Refusal :=
  onNext (fireFrameIfMatured t) (if insnMatured t s then instructionFire s else .next s)

/-! ### Placing a word for the host's query -/

/-- Store a word where the next engine step fetches: the block runs, the instruction clock fires next, and `pc` stays where it is if two bytes can be fetched there, else it is the entry point 0x200 (log 20). -/
def State.placeWord (s : State) (w : Word) : State :=
  let a : Word := if inRange s.pc 2 then s.pc else 0x0200
  { s with
    pc := a
    mem := s.mem.writeBlock a.toNat [highByte w, lowByte w]
    halted := false
    fault := none
    input := { s.input with clock := .instruction } }

end Sys2Proof.Machine
end

