-- ==== Sys2Proof/Machine/Step.lean ====
section
/-! DEFINITION. One step of the block: one fire of one of its two clocks. -/

namespace Sys2Proof.Machine

/-- One fire, while `halted = 0`; "No step exists from a halted state" (00_scope.md R11; 60_exceptions.md R243, R250). -/
def step (s : State) : Host.Outcome State Fault Refusal :=
  if s.halted then .fault (.halted s.fault) else fire s

/-- `s` with the table word placed where the next step fetches it (log 20). -/
def State.withFetchWord (s : State) (nbits w : Nat) : State := s.placeWord (tableWord nbits w)

end Sys2Proof.Machine
end

