-- ==== Sys2Proof/Machine/Construct.lean ====
section
/-! DEFINITION. Construction, font load and program load (70_reset_and_hazards.md R280 to R284). -/

namespace Sys2Proof.Machine

/-- `load_font()`: `FONT` to 0x050..0x09F (R281). -/
def loadFont (m : Memory) (font : Vector Byte 80) : Memory := m.writeBlock fontBase font.toList

/-- `load_program(PROGRAM)`: the bytes from 0x200 upward (R282). -/
def loadProgram (m : Memory) (program : List Byte) : Memory := m.writeBlock progBase program

/-- The start state before a program is loaded: everything of R35 but memory, at wall time `t0`. -/
def State.blank (c : Config) (t0 : Nat) : State := { State.reset with cfg := c, tInsn := t0, tFrame := t0 }

/-- Construction at wall time `t0`: the length check first, then font, program and the start values (R280). An oversized program records `LOAD_OVERSIZE` and halts the block before anything is written (R283; log 12). -/
def State.construct (c : Config) (program : List Byte) (t0 : Nat) : State :=
  if programFits program then
    { State.blank c t0 with mem := loadProgram (loadFont [] c.font) program }
  else (State.blank c t0).raise .loadOversize 0x0200 0x0200 program.length none

end Sys2Proof.Machine
end

