-- ==== Sys2Proof/Safety.lean ====
section
/-! DEFINITION. The terms claims are stated in: frames, completion, faults, runs, and the invariant of the block. -/

namespace Sys2Proof.Machine

/-! ### Frames -/

/-- The kinds of state a frame speaks of: every field of `State` belongs to exactly one. -/
inductive Part where
  /-- `V[0]`..`V[15]` -/
  | regs
  /-- `I` -/
  | index
  | pc
  | stack
  /-- `DT` -/
  | delay
  /-- `ST` -/
  | sound
  /-- every byte of memory -/
  | memory
  | plane
  | dirty
  /-- `halted` and `fault` -/
  | status
  /-- the construction parameters -/
  | config
  /-- `t_insn` and `t_frame` -/
  | clocks
  /-- the input ports: `input`, `script`, `freeCount` -/
  | environment
  /-- the events of the present port -/
  | presents
deriving DecidableEq, Repr

/-- A part reads the same in both states; registers and memory are compared read by read. -/
def Part.same : Part → State → State → Prop
  | .regs, s, t => ∀ r : Reg, t.getV r = s.getV r
  | .index, s, t => t.i = s.i
  | .pc, s, t => t.pc = s.pc
  | .stack, s, t => t.stack = s.stack
  | .delay, s, t => t.dt = s.dt
  | .sound, s, t => t.st = s.st
  | .memory, s, t => ∀ a : Nat, t.mem.read a = s.mem.read a
  | .plane, s, t => t.plane = s.plane
  | .dirty, s, t => t.dirty = s.dirty
  | .status, s, t => t.halted = s.halted ∧ t.fault = s.fault
  | .config, s, t => t.cfg = s.cfg
  | .clocks, s, t => t.tInsn = s.tInsn ∧ t.tFrame = s.tFrame
  | .environment, s, t => t.input = s.input ∧ t.script = s.script ∧ t.freeCount = s.freeCount
  | .presents, s, t => t.presents = s.presents

/-- From `s` to `t` every part but those listed is unchanged. -/
def KeepsAllBut (parts : List Part) (s t : State) : Prop := ∀ p : Part, p ∉ parts → p.same s t

/-- Every register but those listed is unchanged. -/
def KeepsRegsBut (rs : List Reg) (s t : State) : Prop := ∀ r : Reg, r ∉ rs → t.getV r = s.getV r

/-- Every byte of memory outside `a .. a+n-1` is unchanged. -/
def KeepsMemoryBut (a n : Nat) (s t : State) : Prop :=
  ∀ b : Nat, b < a ∨ a + n ≤ b → t.mem.read b = s.mem.read b

/-! ### What an instruction does -/

/-- The instruction answers a next state, and that state is as `post` says. -/
def Completes (insn : Instr) (s : State) (post : State → Prop) : Prop :=
  ∃ t : State, exec insn s = .next t ∧ post t

/-- The instruction completes, and its whole effect is `V[x] <- b`. -/
def WritesReg (insn : Instr) (s : State) (x : Reg) (b : Byte) : Prop :=
  Completes insn s fun t => t.getV x = b ∧ KeepsRegsBut [x] s t ∧ KeepsAllBut [.regs] s t

/-- The instruction completes, and its whole effect is `V[x] <- b` and then `VF <- f`, 0 or 1: with `x = 15` VF holds the flag (R21). -/
def WritesRegAndFlag (insn : Instr) (s : State) (x : Reg) (b : Byte) (f : Prop) : Prop :=
  Completes insn s fun t =>
    ((f ∧ t.getV 15 = 1) ∨ (¬f ∧ t.getV 15 = 0)) ∧ (x ≠ 15 → t.getV x = b) ∧
      KeepsRegsBut [x, 15] s t ∧ KeepsAllBut [.regs] s t

/-- The instruction completes, and its whole effect is `pc <- a`. -/
def WritesPc (insn : Instr) (s : State) (a : Word) : Prop :=
  Completes insn s fun t => t.pc = a ∧ KeepsAllBut [.pc] s t

/-- A skip instruction: `pc <- pc + 2` when the condition holds, else nothing at all. -/
def SkipsWhen (insn : Instr) (s : State) (c : Prop) : Prop :=
  (c → WritesPc insn s (s.pc + 2)) ∧ (¬c → WritesPc insn s s.pc)

/-- The instruction raises a fault: the record is stored, the block halts and nothing else changes (R241 to R243). `pc` holds `pc0 + 2`, so `pc0` is `pc − 2`. -/
def FaultsWith (insn : Instr) (s : State) (cause : FaultCause) (addr : Word) (len : Nat) : Prop :=
  Completes insn s fun t =>
    t.halted = true ∧
      t.fault = some { cause := cause, pc := s.pc - 2, addr := addr, len := len, opcode := some (encode insn) } ∧
      KeepsAllBut [.status] s t

/-- `w` is the word of the instruction, both ways. -/
def IsWordOf (w : Word) (insn : Instr) : Prop := encode insn = w ∧ decodeWord w = .instr insn

/-! ### What each instruction may write -/

/-- The registers an instruction may write: `V[x]` where its rule writes it, VF for the six flag writers, `V[0..x]` for LD Vx,[I] (R20, R21). -/
def destRegs : Instr → List Reg
  | .cls => []
  | .ret => []
  | .jp _ => []
  | .call _ => []
  | .seImm _ _ => []
  | .sneImm _ _ => []
  | .seReg _ _ => []
  | .ldImm x _ => [x]
  | .addImm x _ => [x]
  | .ldReg x _ => [x]
  | .orReg x _ => [x]
  | .andReg x _ => [x]
  | .xorReg x _ => [x]
  | .addReg x _ => [x]
  | .subReg x _ => [x, 15]
  | .shr x _ => [x, 15]
  | .subn x _ => [x, 15]
  | .shl x _ => [x, 15]
  | .sneReg _ _ => []
  | .ldI _ => []
  | .jpV0 _ => []
  | .rnd x _ => [x]
  | .drw _ _ _ => [15]
  | .skp _ => []
  | .sknp _ => []
  | .ldVxDT x => [x]
  | .ldVxK x => [x]
  | .ldDTVx _ => []
  | .ldSTVx _ => []
  | .addI _ => [15]
  | .ldF _ => []
  | .ldB _ => []
  | .ldStore _ => []
  | .ldLoad x => (List.range 16).filterMap fun k => if k ≤ x.toNat then some (BitVec.ofNat 4 k) else none

/-- The parts of the state an instruction may write; `status` for those that can raise a fault (R22 to R29, R68, R240). -/
def destParts : Instr → List Part
  | .cls => [.plane, .dirty]
  | .ret => [.pc, .stack]
  | .jp _ => [.pc]
  | .call _ => [.pc, .stack, .status]
  | .seImm _ _ => [.pc]
  | .sneImm _ _ => [.pc]
  | .seReg _ _ => [.pc]
  | .ldImm _ _ => [.regs]
  | .addImm _ _ => [.regs]
  | .ldReg _ _ => [.regs]
  | .orReg _ _ => [.regs]
  | .andReg _ _ => [.regs]
  | .xorReg _ _ => [.regs]
  | .addReg _ _ => [.regs]
  | .subReg _ _ => [.regs]
  | .shr _ _ => [.regs]
  | .subn _ _ => [.regs]
  | .shl _ _ => [.regs]
  | .sneReg _ _ => [.pc]
  | .ldI _ => [.index]
  | .jpV0 _ => [.pc]
  | .rnd _ _ => [.regs]
  | .drw _ _ _ => [.regs, .plane, .dirty, .status]
  | .skp _ => [.pc]
  | .sknp _ => [.pc]
  | .ldVxDT _ => [.regs]
  | .ldVxK _ => [.regs, .pc]
  | .ldDTVx _ => [.delay]
  | .ldSTVx _ => [.sound]
  | .addI _ => [.regs, .index]
  | .ldF _ => [.index]
  | .ldB _ => [.memory, .status]
  | .ldStore _ => [.memory, .status]
  | .ldLoad _ => [.regs, .status]

/-- The one condition under which an instruction raises a fault, by the table of R240. -/
def FaultCondition : Instr → State → Prop
  | .cls, _ => False
  | .ret, _ => False
  | .jp _, _ => False
  | .call _, s => s.cfg.stackDepth ≤ s.depth
  | .seImm _ _, _ => False
  | .sneImm _ _, _ => False
  | .seReg _ _, _ => False
  | .ldImm _ _, _ => False
  | .addImm _ _, _ => False
  | .ldReg _ _, _ => False
  | .orReg _ _, _ => False
  | .andReg _ _, _ => False
  | .xorReg _ _, _ => False
  | .addReg _ _, _ => False
  | .subReg _ _, _ => False
  | .shr _ _, _ => False
  | .subn _ _, _ => False
  | .shl _ _, _ => False
  | .sneReg _ _, _ => False
  | .ldI _, _ => False
  | .jpV0 _, _ => False
  | .rnd _ _, _ => False
  | .drw _ _ n, s => memSize < s.i.toNat + n.toNat
  | .skp _, _ => False
  | .sknp _, _ => False
  | .ldVxDT _, _ => False
  | .ldVxK _, _ => False
  | .ldDTVx _, _ => False
  | .ldSTVx _, _ => False
  | .addI _, _ => False
  | .ldF _, _ => False
  | .ldB _, s => memSize < s.i.toNat + 3
  | .ldStore x, s => memSize < s.i.toNat + (x.toNat + 1)
  | .ldLoad x, s => memSize < s.i.toNat + (x.toNat + 1)

/-! ### Sprites, by cells -/

/-- The sprite drawn at (xs, ys) has a set bit at cell (cx, cy): the start wraps, rows go down and columns to the right, bit 7 leftmost (R192). Cells of the plane only: clipping is that no other cell exists. -/
def SpriteBit (g : Geometry) (bytes : List Byte) (xs ys : Byte) (cx cy : Nat) : Prop :=
  ∃ r c : Nat, r < bytes.length ∧ c < 8 ∧
    cx = xs.toNat % planeWidth g + c ∧ cy = ys.toNat % planeHeight g + r ∧
    (bytes.getD r 0).getLsbD (7 - c) = true

/-- (cx, cy) is a cell of the plane (R28). -/
def InPlane (g : Geometry) (cx cy : Nat) : Prop := cx < planeWidth g ∧ cy < planeHeight g

/-! ### The environment -/

/-- `s` with another clock due to fire. -/
def State.withClock (s : State) (c : Clock) : State := { s with input := { s.input with clock := c } }

/-- `s` with another byte on the `rand` port. -/
def State.withRand (s : State) (r : Byte) : State := { s with input := { s.input with rand := r } }

/-- `s` with other levels and another pick on the keypad port. -/
def State.withKeys (s : State) (keys : BitVec 16) (pick : Nat) : State :=
  { s with input := { s.input with keyDown := keys, keyPick := pick } }

/-! ### Runs (60_exceptions.md R253, R270) -/

/-- An infinite run: every step is a fire. -/
def IsRun (r : Nat → State) : Prop := ∀ k, step (r k) = .next (r (k + 1))

/-- Weak fairness: each clock fires infinitely often (R253). The only timing a progress claim may assume. -/
def WeaklyFair (r : Nat → State) : Prop :=
  ∀ k, (∃ j, k ≤ j ∧ (r j).input.clock = .instruction) ∧ (∃ j, k ≤ j ∧ (r j).input.clock = .frame)

/-- Some number of steps leads from `s` to `t`. -/
def Reaches (s t : State) : Prop := ∃ k, Sys2Proof.core.run k s = .next t

/-- A safe state: no fault has been raised. -/
def Safe (s : State) : Prop := s.halted = false ∧ s.fault = none

/-- The word at `pc` is a jump to its own address (R122, R270). -/
def AtSelfJump (s : State) : Prop :=
  ∃ nnn : Addr, s.pc = zextAddr nnn ∧ s.fetch16 s.pc = some (0x1#4 ++ nnn)

/-! ### The invariant -/

/-- What every construction establishes and every step keeps. -/
structure State.Inv (s : State) : Prop where
  /-- memory is in canonical form -/
  mem_wf : s.mem.wf = true
  /-- no bit of the plane lies outside its W × H cells (R28) -/
  plane_wf : planeWf s.cfg.geometry s.plane = true
  /-- the parameters lie in their domains (R7) -/
  cfg_wf : s.cfg.wf = true
  /-- `Depth() ≤ STACK_DEPTH` (R25) -/
  depth_le : s.depth ≤ s.cfg.stackDepth
  /-- a return address is `pc0 + 2` of a fetched CALL (R66, R123) -/
  entries : ∀ a ∈ s.stack, 0x002 ≤ a.toNat ∧ a.toNat ≤ 0x1000
  /-- `pc` is "at most 0x10FE" and never wraps (R23) -/
  pc_le : s.pc.toNat ≤ 0x10FE
  /-- a fault sets both `halted` and `fault`, and nothing else does (R31, R243) -/
  halted_iff : s.halted = s.fault.isSome

end Sys2Proof.Machine
end

