-- ==== Sys2Proof/Certificates/Slice0/Obligations.lean ====
section
/-! DEFINITION. The statements for the provers. `pc` in a statement about `exec` is the post-fetch value `pc0 + 2` (R23, R90). -/

open Sys2Proof Sys2Proof.Machine

/-! ### Construction and reset -/

/-- R35, R281, R282: the start state, for every parameter and every program that fits. -/
def Obligations.ConstructionGivesTheStartState : Prop :=
  ∀ (c : Config) (program : List Byte) (t0 : Nat), program.length ≤ 3584 →
    let s := State.construct c program t0
    (∀ r : Reg, s.getV r = 0) ∧ s.i = 0 ∧ s.pc = 0x200 ∧ s.stack = [] ∧ s.depth = 0 ∧ s.dt = 0 ∧ s.st = 0 ∧
    (∀ g r : Nat, g < 16 → r < 5 → s.mem.read (0x050 + 5 * g + r) = c.font.toList.getD (5 * g + r) 0) ∧
    (∀ k : Nat, k < program.length → s.mem.read (0x200 + k) = program.getD k 0) ∧
    (∀ a : Nat, a < 4096 → ¬(0x050 ≤ a ∧ a ≤ 0x09F) → ¬(0x200 ≤ a ∧ a < 0x200 + program.length) →
      s.mem.read a = 0) ∧
    (∀ x y : Nat, InPlane c.geometry x y → cell c.geometry s.plane x y = false) ∧
    s.dirty = false ∧ s.halted = false ∧ s.fault = none ∧ s.cfg = c ∧ s.tInsn = t0 ∧ s.tFrame = t0

/-- The model's choice (logs 2, 8): `State.reset` is the construction with the default parameters and the empty program. -/
def Obligations.ResetIsTheConstructionWithTheEmptyProgram : Prop :=
  State.reset = State.construct defaultConfig [] Config.startTimeUs

/-- The length check of R283, "The loader checks `len(PROGRAM) ≤ PROG_MAX` (3584) before it writes anything". That a step of the halted block is the outcome `fault` is the model's choice (log 1). -/
def Obligations.OversizedProgramNeverRuns : Prop :=
  ∀ (c : Config) (program : List Byte) (t0 : Nat),
    let s := State.construct c program t0
    (3584 < program.length →
      s.halted = true ∧
      s.fault = some { cause := .loadOversize, pc := 0x200, addr := 0x200, len := program.length, opcode := none } ∧
      step s = .fault (.halted s.fault) ∧ ∀ t : Nat, loopIteration t s = .next s) ∧
    (program.length ≤ 3584 → s.halted = false ∧ s.fault = none) ∧
    (program.length = 3584 → ∀ k : Nat, k < 3584 → s.mem.read (0x200 + k) = program.getD k 0)

/-! ### Encoding -/

/-- Words written out from R94 to R97 and from the source's own examples (R93), one or more a family. -/
def Obligations.SpecWordsDecodeAsTheSpecSays : Prop :=
  decodeWord 0b0000000011100000 = .instr .cls ∧
  decodeWord 0b0001001000000000 = .instr (.jp 0x200) ∧
  decodeWord 0b0110101000010100 = .instr (.ldImm 0xA 0x14) ∧
  decodeWord 0b1000000100100111 = .instr (.subn 1 2) ∧
  decodeWord 0b1010000001010000 = .instr (.ldI 0x050) ∧
  decodeWord 0b1101000000000101 = .instr (.drw 0 0 5) ∧
  decodeWord 0b1110000110011110 = .instr (.skp 1) ∧
  decodeWord 0b1111001101100101 = .instr (.ldLoad 3) ∧
  decodeWord 0b0101000100100001 = .unknown .family5

/-- Decoding the two bytes of an encoded instruction gives it back, with every operand, and the bytes after it. -/
def Obligations.DecodeOfEncodeIsTheInstruction : Prop :=
  ∀ (insn : Instr) (rest : List Byte), insn.wf = true →
    decodeBytes (highByte (encode insn) :: lowByte (encode insn) :: rest) = .decoded (.instr insn) rest

/-- An instruction has one word: encoding what a word decodes to gives the word back. -/
def Obligations.EncodeOfDecodeIsTheWord : Prop :=
  ∀ (w : Word) (insn : Instr), decodeWord w = .instr insn → encode insn = w

/-- R99 and the table of R98, family by family, on the number of the word. -/
def Obligations.UnknownWordsAreThoseOfTheTable : Prop :=
  ∀ w : Word,
    (decodeWord w = .unknown .family0 ↔ w.toNat / 4096 = 0 ∧ w.toNat ≠ 0x00E0 ∧ w.toNat ≠ 0x00EE) ∧
    (decodeWord w = .unknown .family5 ↔ w.toNat / 4096 = 5 ∧ w.toNat % 16 ≠ 0) ∧
    (decodeWord w = .unknown .family8 ↔ w.toNat / 4096 = 8 ∧
      (8 ≤ w.toNat % 16 ∧ w.toNat % 16 ≤ 0xD ∨ w.toNat % 16 = 0xF)) ∧
    (decodeWord w = .unknown .family9 ↔ w.toNat / 4096 = 9 ∧ w.toNat % 16 ≠ 0) ∧
    (decodeWord w = .unknown .familyE ↔ w.toNat / 4096 = 0xE ∧ w.toNat % 256 ≠ 0x9E ∧ w.toNat % 256 ≠ 0xA1) ∧
    (decodeWord w = .unknown .familyF ↔ w.toNat / 4096 = 0xF ∧
      w.toNat % 256 ∉ [0x07, 0x0A, 0x15, 0x18, 0x1E, 0x29, 0x33, 0x55, 0x65])

/-- The decode tree and the mask and value columns of the opcode table say the same. -/
def Obligations.DecoderAgreesWithTheOpcodeTable : Prop :=
  ∀ (w : Word) (insn : Instr),
    (decodeWord w = .instr insn → insn.row.matches w = true) ∧
    (insn.row.matches w = true → ∃ other : Instr, decodeWord w = .instr other ∧ other.row = insn.row)

/-! ### The engine step -/

/-- R90: a fire of the instruction clock on a running block runs the decoded instruction after advancing `pc` by 2. What the step adds around it is the model's choice: it advances `t_insn` (log 8) and moves the environment on (log 5). -/
def Obligations.StepRunsTheDecodedInstruction : Prop :=
  ∀ (s : State) (insn : Instr), s.halted = false → s.input.clock = .instruction → s.pc.toNat + 2 ≤ 4096 →
    insn.wf = true →
    decodeWord (s.mem.read s.pc.toNat ++ s.mem.read (s.pc.toNat + 1)) = .instr insn →
    step s = onNext State.nextInput (exec insn { s with pc := s.pc + 2, tInsn := s.tInsn + s.cfg.tickUs })

/-- R101: an unknown word is a no-op; only `pc` moves, by 2. -/
def Obligations.UnknownWordIsANoOp : Prop :=
  ∀ (s : State) (f : UnknownFamily), s.halted = false → s.input.clock = .instruction → s.pc.toNat + 2 ≤ 4096 →
    decodeWord (s.mem.read s.pc.toNat ++ s.mem.read (s.pc.toNat + 1)) = .unknown f →
    ∃ t : State, step s = .next t ∧ t.pc = s.pc + 2 ∧ KeepsAllBut [.pc, .clocks, .environment] s t

/-- R78: a fetch at 0xFFF or above raises `FETCH_RANGE` and halts the block; `pc` does not move. -/
def Obligations.FetchPastMemoryHaltsTheBlock : Prop :=
  ∀ s : State, s.halted = false → s.input.clock = .instruction → 0xFFF ≤ s.pc.toNat →
    ∃ t : State, step s = .next t ∧ t.halted = true ∧
      t.fault = some { cause := .fetchRange, pc := s.pc, addr := s.pc, len := 2, opcode := none } ∧
      KeepsAllBut [.status, .clocks, .environment] s t

/-- The model's choice (logs 11, 20): the word that `withFetchWord` places is the one the next step runs, in every state. -/
def Obligations.PlacedWordIsTheNextInstruction : Prop :=
  ∀ (s : State) (w : Nat) (insn : Instr), decodeTableWord 16 w = some insn →
    ∃ u : State, step (s.withFetchWord 16 w) = onNext State.nextInput (exec insn u) ∧
      KeepsAllBut [.pc, .memory, .status, .clocks, .environment] s u ∧ u.halted = false ∧
      (s.pc.toNat + 2 ≤ 4096 → u.pc = s.pc + 2 ∧ KeepsMemoryBut s.pc.toNat 2 s u)

/-! ### The frame step and the scheduler -/

/-- R252, R196: a fire of the frame clock on a running block. -/
def Obligations.FrameStepDecrementsBothTimersAndFlushes : Prop :=
  ∀ s : State, s.halted = false → s.input.clock = .frame →
    ∃ t : State, step s = .next t ∧
      t.dt.toNat = (s.dt.toNat + 255) % 256 ∧ t.st.toNat = (s.st.toNat + 255) % 256 ∧
      t.dirty = false ∧
      (s.dirty = true → t.presents =
        { width := planeWidth s.cfg.geometry, height := planeHeight s.cfg.geometry, cells := s.plane } :: s.presents) ∧
      (s.dirty = false → t.presents = s.presents) ∧
      KeepsAllBut [.delay, .sound, .dirty, .presents, .clocks, .environment] s t

/-- R255 within R253, in the model's form (log 22): a loop iteration of the reference scheduler is at most one fire of each clock, the instruction clock first, and each fire is a step the model admits. -/
def Obligations.LoopIterationIsASequenceOfAdmittedSteps : Prop :=
  ∀ (t : Nat) (s : State), s.halted = false →
    loopIteration t s =
      match (if s.tInsn + s.cfg.tickUs ≤ t then step (s.withClock .instruction) else .next s) with
      | .next u =>
        if u.halted = true then .next u
        else if u.tFrame + 16666 ≤ t then step (u.withClock .frame)
        else .next u
      | .fault r => .fault r
      | .refused r => .refused r

/-- R255: "Each timestamp advances by exactly one period" when its clock fires, and not otherwise. -/
def Obligations.TimestampsAdvanceByOnePeriod : Prop :=
  ∀ (t : Nat) (s u : State), s.halted = false → loopIteration t s = .next u →
    (s.tInsn + s.cfg.tickUs ≤ t → u.tInsn = s.tInsn + s.cfg.tickUs) ∧
    (t < s.tInsn + s.cfg.tickUs → u.tInsn = s.tInsn) ∧
    (s.tFrame + 16666 ≤ t → u.halted = false → u.tFrame = s.tFrame + 16666) ∧
    (t < s.tFrame + 16666 ∨ u.halted = true → u.tFrame = s.tFrame)

/-- R243: "neither the instruction clock nor the frame clock fires again". That a step of a halted block is the outcome `fault` is the model's choice (log 1). -/
def Obligations.HaltedBlockFiresNoClock : Prop :=
  ∀ s : State, s.halted = true →
    step s = .fault (.halted s.fault) ∧ ∀ t : Nat, loopIteration t s = .next s

/-! ### Control transfer -/

/-- R120, R191 -/
def Obligations.ClsClearsEveryCellAndMarksDirty : Prop :=
  ∀ s : State, IsWordOf 0x00E0 .cls ∧
    Completes .cls s fun t =>
      (∀ x y : Nat, InPlane s.cfg.geometry x y → cell s.cfg.geometry t.plane x y = false) ∧ t.dirty = true ∧
      KeepsAllBut [.plane, .dirty] s t

/-- R121 -/
def Obligations.RetPopsOrDoesNothing : Prop :=
  ∀ s : State, IsWordOf 0x00EE .ret ∧
    (s.stack = [] → WritesPc .ret s s.pc) ∧
    (∀ (below : List Word) (top : Word), s.stack = below ++ [top] →
      Completes .ret s fun t => t.pc = top ∧ t.stack = below ∧ KeepsAllBut [.pc, .stack] s t)

/-- R122, with its corner case: a jump to its own address is a fixed point of the engine step. -/
def Obligations.JpSetsPc : Prop :=
  ∀ (nnn : Addr) (s : State), IsWordOf (0x1#4 ++ nnn) (.jp nnn) ∧
    (Completes (.jp nnn) s fun t => t.pc.toNat = nnn.toNat ∧ KeepsAllBut [.pc] s t) ∧
    (s.halted = false → s.input.clock = .instruction → s.pc = zextAddr nnn →
      s.fetch16 s.pc = some (0x1#4 ++ nnn) → ∃ t : State, step s = .next t ∧ KeepsAllBut [.clocks, .environment] s t)

/-- R123 -/
def Obligations.CallPushesTheReturnAddressOrOverflows : Prop :=
  ∀ (nnn : Addr) (s : State), IsWordOf (0x2#4 ++ nnn) (.call nnn) ∧
    (s.depth < s.cfg.stackDepth →
      Completes (.call nnn) s fun t =>
        t.stack = s.stack ++ [s.pc] ∧ t.pc.toNat = nnn.toNat ∧ KeepsAllBut [.pc, .stack] s t) ∧
    (s.depth = s.cfg.stackDepth → FaultsWith (.call nnn) s .stackOverflow (s.pc - 2) 0)

/-- R124 -/
def Obligations.JpV0AddsV0WithoutMask : Prop :=
  ∀ (nnn : Addr) (s : State), IsWordOf (0xB#4 ++ nnn) (.jpV0 nnn) ∧
    Completes (.jpV0 nnn) s fun t => t.pc.toNat = nnn.toNat + (s.getV 0).toNat ∧ KeepsAllBut [.pc] s t

/-- R25, R121, R123: a RET on the stack that a CALL left returns behind the CALL and restores the stack. -/
def Obligations.ReturnUndoesCall : Prop :=
  ∀ (nnn : Addr) (s t u v : State), s.depth < s.cfg.stackDepth → exec (.call nnn) s = .next t →
    u.stack = t.stack → exec .ret u = .next v → v.pc = s.pc ∧ v.stack = s.stack

/-! ### Skips -/

/-- R140, R141 -/
def Obligations.ImmediateSkipsCompareWithTheByte : Prop :=
  ∀ (x : Reg) (nn : Byte) (s : State),
    IsWordOf (0x3#4 ++ x ++ nn) (.seImm x nn) ∧ SkipsWhen (.seImm x nn) s (s.getV x = nn) ∧
    IsWordOf (0x4#4 ++ x ++ nn) (.sneImm x nn) ∧ SkipsWhen (.sneImm x nn) s (s.getV x ≠ nn)

/-- R142, R143 -/
def Obligations.RegisterSkipsCompareTwoRegisters : Prop :=
  ∀ (x y : Reg) (s : State),
    IsWordOf (0x5#4 ++ x ++ y ++ 0x0#4) (.seReg x y) ∧ SkipsWhen (.seReg x y) s (s.getV x = s.getV y) ∧
    IsWordOf (0x9#4 ++ x ++ y ++ 0x0#4) (.sneReg x y) ∧ SkipsWhen (.sneReg x y) s (s.getV x ≠ s.getV y) ∧
    ∀ n : Nibble, n ≠ 0 →
      decodeWord (0x5#4 ++ x ++ y ++ n) = .unknown .family5 ∧ decodeWord (0x9#4 ++ x ++ y ++ n) = .unknown .family9

/-! ### Arithmetic -/

/-- R150, R152 -/
def Obligations.LoadsWriteOneRegister : Prop :=
  ∀ (x y : Reg) (nn : Byte) (s : State),
    IsWordOf (0x6#4 ++ x ++ nn) (.ldImm x nn) ∧ WritesReg (.ldImm x nn) s x nn ∧
    IsWordOf (0x8#4 ++ x ++ y ++ 0x0#4) (.ldReg x y) ∧ WritesReg (.ldReg x y) s x (s.getV y)

/-- R151, R156 -/
def Obligations.AddsWrapAndWriteNoFlag : Prop :=
  ∀ (x y : Reg) (nn : Byte) (s : State),
    IsWordOf (0x7#4 ++ x ++ nn) (.addImm x nn) ∧
    WritesReg (.addImm x nn) s x (BitVec.ofNat 8 (((s.getV x).toNat + nn.toNat) % 256)) ∧
    IsWordOf (0x8#4 ++ x ++ y ++ 0x4#4) (.addReg x y) ∧
    WritesReg (.addReg x y) s x (BitVec.ofNat 8 (((s.getV x).toNat + (s.getV y).toNat) % 256))

/-- R153, R154, R155 -/
def Obligations.BitwiseOperationsWriteNoFlag : Prop :=
  ∀ (x y : Reg) (s : State),
    IsWordOf (0x8#4 ++ x ++ y ++ 0x1#4) (.orReg x y) ∧ WritesReg (.orReg x y) s x (s.getV x ||| s.getV y) ∧
    IsWordOf (0x8#4 ++ x ++ y ++ 0x2#4) (.andReg x y) ∧ WritesReg (.andReg x y) s x (s.getV x &&& s.getV y) ∧
    IsWordOf (0x8#4 ++ x ++ y ++ 0x3#4) (.xorReg x y) ∧ WritesReg (.xorReg x y) s x (s.getV x ^^^ s.getV y)

/-- R157, R158 -/
def Obligations.SubtractsSetVFWhenNoBorrow : Prop :=
  ∀ (x y : Reg) (s : State),
    IsWordOf (0x8#4 ++ x ++ y ++ 0x5#4) (.subReg x y) ∧
    WritesRegAndFlag (.subReg x y) s x
      (BitVec.ofNat 8 ((256 + (s.getV x).toNat - (s.getV y).toNat) % 256)) ((s.getV y).toNat ≤ (s.getV x).toNat) ∧
    IsWordOf (0x8#4 ++ x ++ y ++ 0x7#4) (.subn x y) ∧
    WritesRegAndFlag (.subn x y) s x
      (BitVec.ofNat 8 ((256 + (s.getV y).toNat - (s.getV x).toNat) % 256)) ((s.getV x).toNat ≤ (s.getV y).toNat)

/-- R159, R160, both settings of the quirk flag (R8) -/
def Obligations.ShiftsSetVFToTheBitShiftedOut : Prop :=
  ∀ (x y : Reg) (s : State) (v : Nat),
    (s.cfg.shiftInPlace = true ∧ v = (s.getV x).toNat ∨ s.cfg.shiftInPlace = false ∧ v = (s.getV y).toNat) →
    IsWordOf (0x8#4 ++ x ++ y ++ 0x6#4) (.shr x y) ∧
    WritesRegAndFlag (.shr x y) s x (BitVec.ofNat 8 (v / 2)) (v % 2 = 1) ∧
    IsWordOf (0x8#4 ++ x ++ y ++ 0xE#4) (.shl x y) ∧
    WritesRegAndFlag (.shl x y) s x (BitVec.ofNat 8 (v * 2 % 256)) (128 ≤ v)

/-! ### Index register and random byte -/

/-- R180, R224 -/
def Obligations.IndexLoadsSetI : Prop :=
  ∀ (nnn : Addr) (x : Reg) (s : State),
    IsWordOf (0xA#4 ++ nnn) (.ldI nnn) ∧
    (Completes (.ldI nnn) s fun t => t.i.toNat = nnn.toNat ∧ KeepsAllBut [.index] s t) ∧
    IsWordOf (0xF#4 ++ x ++ 0x29#8) (.ldF x) ∧
    (Completes (.ldF x) s fun t => t.i.toNat = 0x050 + 5 * (s.getV x).toNat ∧ KeepsAllBut [.index] s t)

/-- R181 -/
def Obligations.AddISetsVFFromTheExactSum : Prop :=
  ∀ (x : Reg) (s : State),
    IsWordOf (0xF#4 ++ x ++ 0x1E#8) (.addI x) ∧
    Completes (.addI x) s fun t =>
      t.i.toNat = (s.i.toNat + (s.getV x).toNat) % 0x10000 ∧
      (0xFFF < s.i.toNat + (s.getV x).toNat → t.getV 15 = 1) ∧
      (s.i.toNat + (s.getV x).toNat ≤ 0xFFF → t.getV 15 = 0) ∧
      KeepsRegsBut [15] s t ∧ KeepsAllBut [.regs, .index] s t

/-- R182: for every byte the random source may give. -/
def Obligations.RndMasksAnyRandomByte : Prop :=
  ∀ (x : Reg) (nn r : Byte) (s : State),
    IsWordOf (0xC#4 ++ x ++ nn) (.rnd x nn) ∧ WritesReg (.rnd x nn) (s.withRand r) x (r &&& nn) ∧
    WritesReg (.rnd x nn) s x (s.input.rand &&& nn)

/-! ### Display -/

/-- R192 to R195: the draw, cell by cell, its collision flag, its dirty rule and its range check. -/
def Obligations.DrwXorsTheSpriteAndReportsCollision : Prop :=
  ∀ (x y : Reg) (n : Nibble) (s : State),
    let g := s.cfg.geometry
    let bytes := (List.range n.toNat).map fun k => s.mem.read (s.i.toNat + k)
    let drawn := fun cx cy => InPlane g cx cy ∧ SpriteBit g bytes (s.getV x) (s.getV y) cx cy
    IsWordOf (0xD#4 ++ x ++ y ++ n) (.drw x y n) ∧
    (s.i.toNat + n.toNat ≤ 4096 →
      Completes (.drw x y n) s fun t =>
        (∀ cx cy : Nat, InPlane g cx cy →
          (drawn cx cy → cell g t.plane cx cy = !cell g s.plane cx cy) ∧
          (¬drawn cx cy → cell g t.plane cx cy = cell g s.plane cx cy)) ∧
        ((∃ cx cy : Nat, drawn cx cy ∧ cell g s.plane cx cy = true) → t.getV 15 = 1) ∧
        ((∀ cx cy : Nat, drawn cx cy → cell g s.plane cx cy = false) → t.getV 15 = 0) ∧
        ((∃ cx cy : Nat, drawn cx cy) → t.dirty = true) ∧
        ((∀ cx cy : Nat, ¬drawn cx cy) → t.dirty = s.dirty) ∧
        KeepsRegsBut [15] s t ∧ KeepsAllBut [.regs, .plane, .dirty] s t) ∧
    (4096 < s.i.toNat + n.toNat → FaultsWith (.drw x y n) s .readRange s.i n.toNat)

/-- 90_conflicts.md C1: drawing a sprite twice at one place restores the plane, and on a blank plane the second draw collides exactly when the first lit a cell. -/
def Obligations.DrawingTwiceRestoresThePlane : Prop :=
  ∀ (g : Geometry) (p : Plane) (bytes : List Byte) (xs ys : Byte),
    let first := drawSprite g p bytes xs ys
    let second := drawSprite g first.plane bytes xs ys
    second.plane = p ∧ (p = 0 → first.hit = false ∧ second.hit = first.changed)

/-- R190: the two sizes, and that no instruction changes the geometry. That distinct cells are stored at distinct places below 8192 is the model's choice of layout (log 17). -/
def Obligations.GeometryFixesTheCells : Prop :=
  planeWidth .standard = 64 ∧ planeHeight .standard = 32 ∧ planeWidth .extended = 128 ∧ planeHeight .extended = 64 ∧
  (∀ (g : Geometry) (x y x' y' : Nat), InPlane g x y → InPlane g x' y' →
    cellIndex g x y < 8192 ∧ (cellIndex g x y = cellIndex g x' y' → x = x' ∧ y = y')) ∧
  ∀ (insn : Instr) (s t : State), exec insn s = .next t → t.cfg.geometry = s.cfg.geometry

/-! ### Keypad -/

/-- R210, R211, R262 -/
def Obligations.KeySkipsTestTheKeyInVx : Prop :=
  ∀ (x : Reg) (s : State),
    let down := (s.getV x).toNat ≤ 0xF ∧ s.input.keyDown.getLsbD (s.getV x).toNat = true
    IsWordOf (0xE#4 ++ x ++ 0x9E#8) (.skp x) ∧ SkipsWhen (.skp x) s down ∧
    IsWordOf (0xE#4 ++ x ++ 0xA1#8) (.sknp x) ∧ SkipsWhen (.sknp x) s ¬down

/-- R212, R263: no key down re-executes; otherwise a down key is stored, and every down key may be the one. -/
def Obligations.KeyWaitRetriesOrStoresADownKey : Prop :=
  ∀ (x : Reg) (s : State),
    IsWordOf (0xF#4 ++ x ++ 0x0A#8) (.ldVxK x) ∧
    (s.input.keyDown = 0 → WritesPc (.ldVxK x) s (s.pc - 2)) ∧
    (s.input.keyDown ≠ 0 →
      ∃ k : Nat, k < 16 ∧ s.input.keyDown.getLsbD k = true ∧ WritesReg (.ldVxK x) s x (BitVec.ofNat 8 k)) ∧
    (∀ k : Nat, k < 16 → s.input.keyDown.getLsbD k = true →
      ∃ pick : Nat, WritesReg (.ldVxK x) (s.withKeys s.input.keyDown pick) x (BitVec.ofNat 8 k))

/-- R212, R256: while no key is down, an engine step on LD Vx,K leaves `pc` at the instruction and nothing else changes. -/
def Obligations.KeyWaitStepLeavesTheStateUnchanged : Prop :=
  ∀ (x : Reg) (s : State), s.halted = false → s.input.clock = .instruction → s.pc.toNat + 2 ≤ 4096 →
    s.mem.read s.pc.toNat ++ s.mem.read (s.pc.toNat + 1) = 0xF#4 ++ x ++ 0x0A#8 → s.input.keyDown = 0 →
    ∃ t : State, step s = .next t ∧ KeepsAllBut [.clocks, .environment] s t

/-! ### Timers, BCD, register blocks -/

/-- R220, R221, R222 -/
def Obligations.TimerMovesCopyAByte : Prop :=
  ∀ (x : Reg) (s : State),
    IsWordOf (0xF#4 ++ x ++ 0x07#8) (.ldVxDT x) ∧ WritesReg (.ldVxDT x) s x s.dt ∧
    IsWordOf (0xF#4 ++ x ++ 0x15#8) (.ldDTVx x) ∧
    (Completes (.ldDTVx x) s fun t => t.dt = s.getV x ∧ KeepsAllBut [.delay] s t) ∧
    IsWordOf (0xF#4 ++ x ++ 0x18#8) (.ldSTVx x) ∧
    (Completes (.ldSTVx x) s fun t => t.st = s.getV x ∧ KeepsAllBut [.sound] s t)

/-- R223 -/
def Obligations.BcdStoresThreeDigitsOrFaults : Prop :=
  ∀ (x : Reg) (s : State),
    IsWordOf (0xF#4 ++ x ++ 0x33#8) (.ldB x) ∧
    (s.i.toNat + 3 ≤ 4096 →
      Completes (.ldB x) s fun t =>
        (t.mem.read s.i.toNat).toNat = (s.getV x).toNat / 100 ∧
        (t.mem.read (s.i.toNat + 1)).toNat = (s.getV x).toNat / 10 % 10 ∧
        (t.mem.read (s.i.toNat + 2)).toNat = (s.getV x).toNat % 10 ∧
        KeepsMemoryBut s.i.toNat 3 s t ∧ KeepsAllBut [.memory] s t) ∧
    (4096 < s.i.toNat + 3 → FaultsWith (.ldB x) s .writeRange s.i 3)

/-- R225 -/
def Obligations.RegisterStoreWritesV0ToVxOrFaults : Prop :=
  ∀ (x : Reg) (s : State),
    IsWordOf (0xF#4 ++ x ++ 0x55#8) (.ldStore x) ∧
    (s.i.toNat + x.toNat + 1 ≤ 4096 →
      Completes (.ldStore x) s fun t =>
        (∀ r : Reg, r.toNat ≤ x.toNat → t.mem.read (s.i.toNat + r.toNat) = s.getV r) ∧
        KeepsMemoryBut s.i.toNat (x.toNat + 1) s t ∧ KeepsAllBut [.memory] s t) ∧
    (4096 < s.i.toNat + x.toNat + 1 → FaultsWith (.ldStore x) s .writeRange s.i (x.toNat + 1))

/-- R226 -/
def Obligations.RegisterLoadReadsV0ToVxOrFaults : Prop :=
  ∀ (x : Reg) (s : State),
    IsWordOf (0xF#4 ++ x ++ 0x65#8) (.ldLoad x) ∧
    (s.i.toNat + x.toNat + 1 ≤ 4096 →
      Completes (.ldLoad x) s fun t =>
        (∀ r : Reg, r.toNat ≤ x.toNat → t.getV r = s.mem.read (s.i.toNat + r.toNat)) ∧
        (∀ r : Reg, x.toNat < r.toNat → t.getV r = s.getV r) ∧ KeepsAllBut [.regs] s t) ∧
    (4096 < s.i.toNat + x.toNat + 1 → FaultsWith (.ldLoad x) s .readRange s.i (x.toNat + 1))

/-- R225, R226: loading the block a store wrote gives the registers back. -/
def Obligations.LoadGivesBackWhatStoreWrote : Prop :=
  ∀ (x : Reg) (s t u v : State), s.i.toNat + x.toNat + 1 ≤ 4096 →
    exec (.ldStore x) s = .next t → u.mem = t.mem → u.i = s.i → exec (.ldLoad x) u = .next v →
    ∀ r : Reg, r.toNat ≤ x.toNat → v.getV r = s.getV r

/-- R75: a fetch right after a store sees the stored bytes, and the old ones elsewhere. -/
def Obligations.StoredBytesAreFetchedAtOnce : Prop :=
  ∀ (s t : State) (a p : Word) (bytes : List Byte), s.memWrite a bytes = some t → p.toNat + 2 ≤ 4096 →
    let seen := fun b : Nat =>
      if a.toNat ≤ b ∧ b < a.toNat + bytes.length then bytes.getD (b - a.toNat) 0 else s.mem.read b
    t.fetch16 p = some (seen p.toNat ++ seen (p.toNat + 1))

/-! ### The whole machine -/

/-- The headline invariant, the model's own (logs 1, 4, 17) over R23, R25, R28, R31: canonical memory, a plane inside its cells, `Depth() ≤ STACK_DEPTH`, `pc` at most 0x10FE, `halted` exactly with a fault record. -/
def Obligations.EveryStepKeepsTheInvariant : Prop :=
  ∀ s t : State, s.Inv → step s = .next t → t.Inv

/-- The invariant holds at reset. -/
def Obligations.ResetMeetsTheInvariant : Prop := State.reset.Inv

/-- Every construction with parameters in their domains meets the invariant, whatever the program. For a program over 3584 bytes, R283 gives only `halted` and the record: the memory, plane, stack and `pc` of that halted state are the model's choice (log 12). The invariant itself is the model's (logs 1, 4, 17). -/
def Obligations.EveryConstructionMeetsTheInvariant : Prop :=
  ∀ (c : Config) (program : List Byte) (t0 : Nat), c.wf = true → (State.construct c program t0).Inv

/-- R241: a step that ends halted changed only `pc`, `halted` and the record; `pc` is `pc0` for a fetch fault and `pc0 + 2` otherwise, and the record names `pc0` and the fetched word. -/
def Obligations.RuntimeFaultsArePrecise : Prop :=
  ∀ s t : State, step s = .next t → t.halted = true →
    KeepsAllBut [.pc, .status, .clocks, .environment] s t ∧
    ∃ r : FaultRecord, t.fault = some r ∧ r.pc = s.pc ∧ r.cause ≠ .loadOversize ∧
      (r.cause = .fetchRange → t.pc = s.pc ∧ r.opcode = none ∧ s.fetch16 s.pc = none) ∧
      (r.cause ≠ .fetchRange → t.pc = s.pc + 2 ∧ r.opcode = s.fetch16 s.pc ∧ s.fetch16 s.pc ≠ none)

/-- R240, R245: an instruction faults exactly under its one condition, with one condition wider than the table's: CALL faults at `STACK_DEPTH` entries, as R240 says, and with more entries too, which is the model's inference (log 16). That a raised fault is a next state is the model's choice (log 1). -/
def Obligations.InstructionFaultsExactlyWhenTheTableSays : Prop :=
  ∀ (insn : Instr) (s t : State), s.halted = false → exec insn s = .next t →
    (t.halted = true ↔ FaultCondition insn s)

/-- Over R11 ("No step exists from a halted state. No instruction is refused"): from a running state every step answers a next state, from a halted one none does, and no instruction is refused. R11 says Next or Faulted. That a raised fault is a next state too, with `halted` set, is the model's choice (log 1). -/
def Obligations.RunningBlockAlwaysSteps : Prop :=
  (∀ (insn : Instr) (s : State), ∃ t : State, exec insn s = .next t) ∧
  (∀ s : State, s.halted = false → ∃ t : State, step s = .next t ∧ (t.halted = true → t.fault ≠ none)) ∧
  (∀ s : State, s.halted = true → ∀ t : State, step s ≠ .next t)

/-- R20, R21: an instruction writes no register but those its rule names. -/
def Obligations.InstructionsWriteOnlyTheirRegisters : Prop :=
  ∀ (insn : Instr) (s t : State), exec insn s = .next t → KeepsRegsBut (destRegs insn) s t

/-- R22 to R29, R68: an instruction writes no part of the state but those its rule names; no instruction writes the parameters, the timestamps or the ports. -/
def Obligations.InstructionsWriteOnlyTheirParts : Prop :=
  ∀ (insn : Instr) (s t : State), exec insn s = .next t → KeepsAllBut (destParts insn) s t

/-- R30: the parameters never change. -/
def Obligations.ParametersAreImmutable : Prop :=
  ∀ s t : State, step s = .next t → t.cfg = s.cfg

/-- R264: only RND asks the random source. -/
def Obligations.OnlyRndReadsTheRandomByte : Prop :=
  ∀ (insn : Instr) (s : State) (r : Byte), (∀ (x : Reg) (nn : Byte), insn ≠ .rnd x nn) →
    exec insn (s.withRand r) = onNext (fun t => t.withRand r) (exec insn s)

/-- R261, R289: only SKP, SKNP and LD Vx,K ask the keypad. -/
def Obligations.OnlyKeypadInstructionsReadTheKeys : Prop :=
  ∀ (insn : Instr) (s : State) (keys : BitVec 16) (pick : Nat),
    (∀ x : Reg, insn ≠ .skp x ∧ insn ≠ .sknp x ∧ insn ≠ .ldVxK x) →
    exec insn (s.withKeys keys pick) = onNext (fun t => t.withKeys keys pick) (exec insn s)

/-- R122, R270: at a jump to its own address an engine step leaves the state unchanged, a frame step changes only `DT`, `ST`, `dirty` and what is presented, and the block stays there. -/
def Obligations.SelfJumpIsAFixedPoint : Prop :=
  ∀ s : State, s.halted = false → AtSelfJump s →
    ∃ t : State, step s = .next t ∧ t.halted = false ∧ AtSelfJump t ∧
      (s.input.clock = .instruction → KeepsAllBut [.clocks, .environment] s t) ∧
      (s.input.clock = .frame →
        KeepsAllBut [.delay, .sound, .dirty, .presents, .clocks, .environment] s t)
end

