-- ==== Sys2Proof/Laws/Decode.lean ====
section
/-! SUPPORT. Words as numbers: fields are quotients and remainders, concatenation is a sum. Round trips of bytes and fields. -/

namespace Sys2Proof

/-- A concatenation as a number. -/
theorem toNat_append_eq {m n : Nat} (a : BitVec m) (b : BitVec n) :
    (a ++ b).toNat = a.toNat * 2 ^ n + b.toNat := by
  rw [BitVec.toNat_append, ← Nat.shiftLeft_add_eq_or_of_lt b.isLt, Nat.shiftLeft_eq]

theorem toNat_fieldOp (w : Word) : (fieldOp w).toNat = w.toNat / 4096 % 16 := by
  simp [fieldOp, Nat.shiftRight_eq_div_pow]

theorem toNat_fieldX (w : Word) : (fieldX w).toNat = w.toNat / 256 % 16 := by
  simp [fieldX, Nat.shiftRight_eq_div_pow]

theorem toNat_fieldY (w : Word) : (fieldY w).toNat = w.toNat / 16 % 16 := by
  simp [fieldY, Nat.shiftRight_eq_div_pow]

theorem toNat_fieldN (w : Word) : (fieldN w).toNat = w.toNat % 16 := by
  simp [fieldN]

theorem toNat_fieldNN (w : Word) : (fieldNN w).toNat = w.toNat % 256 := by
  simp [fieldNN]

theorem toNat_fieldNNN (w : Word) : (fieldNNN w).toNat = w.toNat % 4096 := by
  simp [fieldNNN]

theorem toNat_highByte (w : Word) : (highByte w).toNat = w.toNat / 256 := by
  have := w.isLt
  simp [highByte, Nat.shiftRight_eq_div_pow]; omega

theorem toNat_lowByte (w : Word) : (lowByte w).toNat = w.toNat % 256 := by
  simp [lowByte]

/-- Equality of bit vectors as equality of numbers. -/
theorem bv_eq_iff {n : Nat} {a b : BitVec n} : a = b ↔ a.toNat = b.toNat := BitVec.toNat_inj.symm

/-- A word is its two bytes (R66). -/
theorem wordOfBytes_bytes (w : Word) : wordOfBytes (highByte w) (lowByte w) = w := by
  rw [bv_eq_iff, wordOfBytes, toNat_append_eq, toNat_highByte, toNat_lowByte]; omega

theorem highByte_wordOfBytes (hi lo : Byte) : highByte (wordOfBytes hi lo) = hi := by
  have := lo.isLt
  rw [bv_eq_iff, toNat_highByte, wordOfBytes, toNat_append_eq]; omega

theorem lowByte_wordOfBytes (hi lo : Byte) : lowByte (wordOfBytes hi lo) = lo := by
  have := lo.isLt
  rw [bv_eq_iff, toNat_lowByte, wordOfBytes, toNat_append_eq]; omega

/-! ### The four shapes of a word (R91) -/

/-- Shape `NNN`. -/
theorem fields_nnn (op : BitVec 4) (nnn : Addr) :
    fieldOp (op ++ nnn) = op ∧ fieldNNN (op ++ nnn) = nnn := by
  have := op.isLt; have := nnn.isLt
  simp only [bv_eq_iff, toNat_fieldOp, toNat_fieldNNN, toNat_append_eq]; omega

/-- Shape `XNN` (and `X`, with `nn` fixed). -/
theorem fields_xnn (op x : BitVec 4) (nn : Byte) :
    fieldOp (op ++ x ++ nn) = op ∧ fieldX (op ++ x ++ nn) = x ∧ fieldNN (op ++ x ++ nn) = nn := by
  have := op.isLt; have := x.isLt; have := nn.isLt
  simp only [bv_eq_iff, toNat_fieldOp, toNat_fieldX, toNat_fieldNN, toNat_append_eq]; omega

/-- Shape `XYN` (and `XY`, with `n` fixed). -/
theorem fields_xyn (op x y n : BitVec 4) :
    fieldOp (op ++ x ++ y ++ n) = op ∧ fieldX (op ++ x ++ y ++ n) = x ∧ fieldY (op ++ x ++ y ++ n) = y ∧
      fieldN (op ++ x ++ y ++ n) = n := by
  have := op.isLt; have := x.isLt; have := y.isLt; have := n.isLt
  simp only [bv_eq_iff, toNat_fieldOp, toNat_fieldX, toNat_fieldY, toNat_fieldN, toNat_append_eq]; omega

@[simp] theorem fieldOp_nnn (op : BitVec 4) (a : Addr) : fieldOp (op ++ a) = op := (fields_nnn op a).1
@[simp] theorem fieldNNN_nnn (op : BitVec 4) (a : Addr) : fieldNNN (op ++ a) = a := (fields_nnn op a).2
@[simp] theorem fieldOp_xnn (op x : BitVec 4) (b : Byte) : fieldOp (op ++ x ++ b) = op := (fields_xnn op x b).1
@[simp] theorem fieldX_xnn (op x : BitVec 4) (b : Byte) : fieldX (op ++ x ++ b) = x := (fields_xnn op x b).2.1
@[simp] theorem fieldNN_xnn (op x : BitVec 4) (b : Byte) : fieldNN (op ++ x ++ b) = b := (fields_xnn op x b).2.2
@[simp] theorem fieldOp_xyn (op x y n : BitVec 4) : fieldOp (op ++ x ++ y ++ n) = op := (fields_xyn op x y n).1
@[simp] theorem fieldX_xyn (op x y n : BitVec 4) : fieldX (op ++ x ++ y ++ n) = x := (fields_xyn op x y n).2.1
@[simp] theorem fieldY_xyn (op x y n : BitVec 4) : fieldY (op ++ x ++ y ++ n) = y := (fields_xyn op x y n).2.2.1
@[simp] theorem fieldN_xyn (op x y n : BitVec 4) : fieldN (op ++ x ++ y ++ n) = n := (fields_xyn op x y n).2.2.2

/-- A word is its fields, shape by shape. -/
theorem word_nnn (w : Word) : fieldOp w ++ fieldNNN w = w := by
  have := w.isLt
  rw [bv_eq_iff, toNat_append_eq, toNat_fieldOp, toNat_fieldNNN]; omega

theorem word_xnn (w : Word) : fieldOp w ++ fieldX w ++ fieldNN w = w := by
  have := w.isLt
  rw [bv_eq_iff]
  simp only [toNat_append_eq, toNat_fieldOp, toNat_fieldX, toNat_fieldNN]; omega

theorem word_xyn (w : Word) : fieldOp w ++ fieldX w ++ fieldY w ++ fieldN w = w := by
  have := w.isLt
  rw [bv_eq_iff]
  simp only [toNat_append_eq, toNat_fieldOp, toNat_fieldX, toNat_fieldY, toNat_fieldN]; omega

end Sys2Proof
end

