-- ==== Sys2Proof/Laws/Memory.lean ====
section
/-! SUPPORT. Read after write, and that every memory operation keeps the canonical form. -/

namespace Sys2Proof.Machine

/-! ### Read after write -/

theorem Memory.read_nil (a : Nat) : Memory.read [] a = background a := rfl

theorem Memory.read_cons (k : Nat) (b : Byte) (m : Memory) (a : Nat) :
    Memory.read ((k, b) :: m) a = if a = k then b else m.read a := rfl

theorem Memory.read_insert (m : Memory) (a c : Nat) (b : Byte) :
    Memory.read (Memory.insert a b m) c = if c = a then b else m.read c := by
  induction m with
  | nil => simp [Memory.insert, Memory.read]
  | cons hd tl ih =>
    obtain ⟨k, d⟩ := hd
    by_cases h1 : a < k
    · by_cases hc : c = a <;> simp [Memory.insert, Memory.read, h1, hc]
    · by_cases h2 : a = k
      · subst h2
        by_cases hc : c = a <;> simp [Memory.insert, Memory.read, hc]
      · simp only [Memory.insert, h1, h2, if_false, Memory.read, ih]
        by_cases hc : c = a
        · subst hc; simp [h2]
        · simp [hc]

theorem Memory.read_erase (m : Memory) (a c : Nat) :
    (m.erase a).read c = if c = a then background a else m.read c := by
  induction m with
  | nil => by_cases hc : c = a <;> simp [Memory.erase, Memory.read, hc]
  | cons hd tl ih =>
    obtain ⟨k, d⟩ := hd
    simp only [Memory.erase] at ih ⊢
    by_cases hk : k = a
    · subst hk
      simp only [ne_eq, decide_not, List.filter_cons, decide_true, Bool.not_true, Bool.false_eq_true,
        if_false, Memory.read] at ih ⊢
      rw [ih]
      by_cases hc : c = k <;> simp [hc]
    · simp only [ne_eq, decide_not, List.filter_cons, hk, decide_false, Bool.not_false, if_true,
        Memory.read] at ih ⊢
      rw [ih]
      by_cases hc : c = a
      · subst hc; simp [Ne.symm hk]
      · simp [hc]

/-- A byte read after one was written: the new one at its address, the old ones elsewhere. -/
@[simp] theorem Memory.read_write (m : Memory) (a c : Nat) (b : Byte) :
    (m.write a b).read c = if c = a then b else m.read c := by
  unfold Memory.write
  split
  · next h => rw [Memory.read_erase, h]
  · exact Memory.read_insert m a c b

/-- A byte read after a block was written. -/
theorem Memory.read_writeBlock (m : Memory) (a c : Nat) (bs : List Byte) :
    (m.writeBlock a bs).read c =
      if a ≤ c ∧ c < a + bs.length then bs.getD (c - a) 0 else m.read c := by
  induction bs generalizing m a with
  | nil =>
    have : ¬(a ≤ c ∧ c < a) := by omega
    simp [Memory.writeBlock, this]
  | cons b bs ih =>
    rw [Memory.writeBlock, ih, Memory.read_write]
    by_cases h1 : a + 1 ≤ c ∧ c < a + 1 + bs.length
    · have h2 : a ≤ c ∧ c < a + (b :: bs).length := by simp; omega
      rw [if_pos h1, if_pos h2]
      obtain ⟨d, rfl⟩ : ∃ d, c = a + 1 + d := ⟨c - (a + 1), by omega⟩
      have e1 : a + 1 + d - (a + 1) = d := by omega
      have e2 : a + 1 + d - a = d + 1 := by omega
      rw [e1, e2, List.getD_cons_succ]
    · rw [if_neg h1]
      by_cases h3 : c = a
      · subst h3
        rw [if_pos rfl, if_pos ⟨Nat.le_refl _, by simp⟩]
        simp
      · rw [if_neg h3, if_neg]
        simp only [List.length_cons]; omega

/-- Byte `k` of a block read is the byte at `a + k`. -/
theorem Memory.getD_readBlock (m : Memory) (a n k : Nat) (h : k < n) :
    (m.readBlock a n).getD k 0 = m.read (a + k) := by
  simp [Memory.readBlock, List.getD, h]

@[simp] theorem Memory.length_readBlock (m : Memory) (a n : Nat) : (m.readBlock a n).length = n := by
  simp [Memory.readBlock]

/-! ### The canonical form -/

theorem Memory.wfFrom_mono {lo lo' : Nat} (h : lo' ≤ lo) {m : Memory} (hm : m.wfFrom lo = true) :
    m.wfFrom lo' = true := by
  cases m with
  | nil => rfl
  | cons hd tl =>
    obtain ⟨k, b⟩ := hd
    simp only [Memory.wfFrom, Bool.and_eq_true, decide_eq_true_eq] at hm ⊢
    exact ⟨⟨⟨Nat.le_trans h hm.1.1.1, hm.1.1.2⟩, hm.1.2⟩, hm.2⟩

theorem Memory.wfFrom_insert {m : Memory} {lo a : Nat} {b : Byte} (hm : m.wfFrom lo = true) (hlo : lo ≤ a)
    (ha : a < memSize) (hb : b ≠ background a) : (Memory.insert a b m).wfFrom lo = true := by
  induction m generalizing lo with
  | nil => simp [Memory.insert, Memory.wfFrom, hlo, ha, hb]
  | cons hd tl ih =>
    obtain ⟨k, c⟩ := hd
    simp only [Memory.wfFrom, Bool.and_eq_true, decide_eq_true_eq] at hm
    obtain ⟨⟨⟨h1, h2⟩, h3⟩, h4⟩ := hm
    unfold Memory.insert
    split
    · next hlt =>
      simp only [Memory.wfFrom, Bool.and_eq_true, decide_eq_true_eq]
      exact ⟨⟨⟨hlo, ha⟩, by simpa using hb⟩, ⟨⟨Nat.succ_le_of_lt hlt, h2⟩, h3⟩, h4⟩
    · split
      · next heq =>
        subst heq
        simp only [Memory.wfFrom, Bool.and_eq_true, decide_eq_true_eq]
        exact ⟨⟨⟨hlo, ha⟩, by simpa using hb⟩, h4⟩
      · next hge hne =>
        simp only [Memory.wfFrom, Bool.and_eq_true, decide_eq_true_eq]
        exact ⟨⟨⟨h1, h2⟩, h3⟩, ih h4 (by omega)⟩

theorem Memory.wfFrom_erase {m : Memory} {lo : Nat} (a : Nat) (hm : m.wfFrom lo = true) :
    (m.erase a).wfFrom lo = true := by
  unfold Memory.erase
  induction m generalizing lo with
  | nil => rfl
  | cons hd tl ih =>
    obtain ⟨k, c⟩ := hd
    simp only [Memory.wfFrom, Bool.and_eq_true, decide_eq_true_eq] at hm
    obtain ⟨⟨⟨h1, h2⟩, h3⟩, h4⟩ := hm
    rw [List.filter_cons]
    split
    · simp only [Memory.wfFrom, Bool.and_eq_true, decide_eq_true_eq]
      exact ⟨⟨⟨h1, h2⟩, h3⟩, ih h4⟩
    · exact ih (Memory.wfFrom_mono (by omega) h4)

/-- A write keeps the canonical form. -/
theorem Memory.wf_write {m : Memory} {a : Nat} {b : Byte} (hm : m.wf = true) (ha : a < memSize) :
    (m.write a b).wf = true := by
  unfold Memory.write
  split
  · exact Memory.wfFrom_erase a hm
  · next hb => exact Memory.wfFrom_insert hm (Nat.zero_le a) ha hb

/-- A block write inside memory keeps the canonical form. -/
theorem Memory.wf_writeBlock {m : Memory} {a : Nat} {bs : List Byte} (hm : m.wf = true)
    (ha : a + bs.length ≤ memSize) : (m.writeBlock a bs).wf = true := by
  induction bs generalizing m a with
  | nil => exact hm
  | cons b bs ih =>
    simp only [List.length_cons] at ha
    exact ih (Memory.wf_write hm (by omega)) (by omega)

/-- Canonical memories that read the same everywhere from `lo` on are equal. -/
theorem Memory.ext_of_read {m m' : Memory} {lo : Nat} (hm : m.wfFrom lo = true) (hm' : m'.wfFrom lo = true)
    (h : ∀ a, lo ≤ a → m.read a = m'.read a) : m = m' := by
  have read_below : ∀ {n : Memory} {l a : Nat}, n.wfFrom l = true → a < l → n.read a = background a := by
    intro n
    induction n with
    | nil => intro l a _ _; rfl
    | cons hd tl ih =>
      intro l a hn ha
      obtain ⟨k, c⟩ := hd
      simp only [Memory.wfFrom, Bool.and_eq_true, decide_eq_true_eq] at hn
      rw [Memory.read_cons, if_neg (by omega)]
      exact ih hn.2 (by omega)
  induction m generalizing m' lo with
  | nil =>
    cases m' with
    | nil => rfl
    | cons hd tl =>
      obtain ⟨k, c⟩ := hd
      simp only [Memory.wfFrom, Bool.and_eq_true, decide_eq_true_eq] at hm'
      have := h k hm'.1.1.1
      rw [Memory.read_nil, Memory.read_cons, if_pos rfl] at this
      exact absurd this.symm (by simpa using hm'.1.2)
  | cons hd tl ih =>
    obtain ⟨k, b⟩ := hd
    have hm0 := hm
    simp only [Memory.wfFrom, Bool.and_eq_true, decide_eq_true_eq] at hm
    cases m' with
    | nil =>
      have := h k hm.1.1.1
      rw [Memory.read_nil, Memory.read_cons, if_pos rfl] at this
      exact absurd this (by simpa using hm.1.2)
    | cons hd' tl' =>
      obtain ⟨k', b'⟩ := hd'
      have hm0' := hm'
      simp only [Memory.wfFrom, Bool.and_eq_true, decide_eq_true_eq] at hm'
      have hk : k = k' := by
        rcases Nat.lt_trichotomy k k' with hlt | heq | hgt
        · have e := h k hm.1.1.1
          rw [Memory.read_cons, if_pos rfl, Memory.read_cons, if_neg (by omega),
            read_below hm'.2 (by omega)] at e
          exact absurd e (by simpa using hm.1.2)
        · exact heq
        · have e := h k' hm'.1.1.1
          rw [Memory.read_cons, if_neg (by omega), read_below hm.2 (by omega), Memory.read_cons, if_pos rfl] at e
          exact absurd e.symm (by simpa using hm'.1.2)
      subst hk
      have hb : b = b' := by
        have e := h k hm.1.1.1
        rwa [Memory.read_cons, if_pos rfl, Memory.read_cons, if_pos rfl] at e
      subst hb
      rw [ih hm.2 hm'.2 fun a ha => by
        have e := h a (by omega)
        rwa [Memory.read_cons, if_neg (by omega), Memory.read_cons, if_neg (by omega)] at e]

end Sys2Proof.Machine
end

