-- ==== Sys2Proof/Laws/State.lean ====
section
/-! SUPPORT. What each update of the state does to each field: one lemma a field and update, true by rfl. -/

namespace Sys2Proof.Machine

variable (s : State)

/-! ### setV -/

@[simp] theorem State.setV_v (r : Reg) (b : Byte) : (s.setV r b).v = s.v.set r.toNat b r.isLt := rfl
@[simp] theorem State.setV_i (r : Reg) (b : Byte) : (s.setV r b).i = s.i := rfl
@[simp] theorem State.setV_pc (r : Reg) (b : Byte) : (s.setV r b).pc = s.pc := rfl
@[simp] theorem State.setV_stack (r : Reg) (b : Byte) : (s.setV r b).stack = s.stack := rfl
@[simp] theorem State.setV_dt (r : Reg) (b : Byte) : (s.setV r b).dt = s.dt := rfl
@[simp] theorem State.setV_st (r : Reg) (b : Byte) : (s.setV r b).st = s.st := rfl
@[simp] theorem State.setV_mem (r : Reg) (b : Byte) : (s.setV r b).mem = s.mem := rfl
@[simp] theorem State.setV_plane (r : Reg) (b : Byte) : (s.setV r b).plane = s.plane := rfl
@[simp] theorem State.setV_dirty (r : Reg) (b : Byte) : (s.setV r b).dirty = s.dirty := rfl
@[simp] theorem State.setV_halted (r : Reg) (b : Byte) : (s.setV r b).halted = s.halted := rfl
@[simp] theorem State.setV_fault (r : Reg) (b : Byte) : (s.setV r b).fault = s.fault := rfl
@[simp] theorem State.setV_cfg (r : Reg) (b : Byte) : (s.setV r b).cfg = s.cfg := rfl
@[simp] theorem State.setV_tInsn (r : Reg) (b : Byte) : (s.setV r b).tInsn = s.tInsn := rfl
@[simp] theorem State.setV_tFrame (r : Reg) (b : Byte) : (s.setV r b).tFrame = s.tFrame := rfl
@[simp] theorem State.setV_input (r : Reg) (b : Byte) : (s.setV r b).input = s.input := rfl
@[simp] theorem State.setV_script (r : Reg) (b : Byte) : (s.setV r b).script = s.script := rfl
@[simp] theorem State.setV_freeCount (r : Reg) (b : Byte) : (s.setV r b).freeCount = s.freeCount := rfl
@[simp] theorem State.setV_presents (r : Reg) (b : Byte) : (s.setV r b).presents = s.presents := rfl

/-! ### setI -/

@[simp] theorem State.setI_v (a : Word) : (s.setI a).v = s.v := rfl
@[simp] theorem State.setI_i (a : Word) : (s.setI a).i = a := rfl
@[simp] theorem State.setI_pc (a : Word) : (s.setI a).pc = s.pc := rfl
@[simp] theorem State.setI_stack (a : Word) : (s.setI a).stack = s.stack := rfl
@[simp] theorem State.setI_dt (a : Word) : (s.setI a).dt = s.dt := rfl
@[simp] theorem State.setI_st (a : Word) : (s.setI a).st = s.st := rfl
@[simp] theorem State.setI_mem (a : Word) : (s.setI a).mem = s.mem := rfl
@[simp] theorem State.setI_plane (a : Word) : (s.setI a).plane = s.plane := rfl
@[simp] theorem State.setI_dirty (a : Word) : (s.setI a).dirty = s.dirty := rfl
@[simp] theorem State.setI_halted (a : Word) : (s.setI a).halted = s.halted := rfl
@[simp] theorem State.setI_fault (a : Word) : (s.setI a).fault = s.fault := rfl
@[simp] theorem State.setI_cfg (a : Word) : (s.setI a).cfg = s.cfg := rfl
@[simp] theorem State.setI_tInsn (a : Word) : (s.setI a).tInsn = s.tInsn := rfl
@[simp] theorem State.setI_tFrame (a : Word) : (s.setI a).tFrame = s.tFrame := rfl
@[simp] theorem State.setI_input (a : Word) : (s.setI a).input = s.input := rfl
@[simp] theorem State.setI_script (a : Word) : (s.setI a).script = s.script := rfl
@[simp] theorem State.setI_freeCount (a : Word) : (s.setI a).freeCount = s.freeCount := rfl
@[simp] theorem State.setI_presents (a : Word) : (s.setI a).presents = s.presents := rfl
@[simp] theorem State.getV_setI (a : Word) (q : Reg) : (s.setI a).getV q = s.getV q := rfl

/-! ### setDT -/

@[simp] theorem State.setDT_v (b : Byte) : (s.setDT b).v = s.v := rfl
@[simp] theorem State.setDT_i (b : Byte) : (s.setDT b).i = s.i := rfl
@[simp] theorem State.setDT_pc (b : Byte) : (s.setDT b).pc = s.pc := rfl
@[simp] theorem State.setDT_stack (b : Byte) : (s.setDT b).stack = s.stack := rfl
@[simp] theorem State.setDT_dt (b : Byte) : (s.setDT b).dt = b := rfl
@[simp] theorem State.setDT_st (b : Byte) : (s.setDT b).st = s.st := rfl
@[simp] theorem State.setDT_mem (b : Byte) : (s.setDT b).mem = s.mem := rfl
@[simp] theorem State.setDT_plane (b : Byte) : (s.setDT b).plane = s.plane := rfl
@[simp] theorem State.setDT_dirty (b : Byte) : (s.setDT b).dirty = s.dirty := rfl
@[simp] theorem State.setDT_halted (b : Byte) : (s.setDT b).halted = s.halted := rfl
@[simp] theorem State.setDT_fault (b : Byte) : (s.setDT b).fault = s.fault := rfl
@[simp] theorem State.setDT_cfg (b : Byte) : (s.setDT b).cfg = s.cfg := rfl
@[simp] theorem State.setDT_tInsn (b : Byte) : (s.setDT b).tInsn = s.tInsn := rfl
@[simp] theorem State.setDT_tFrame (b : Byte) : (s.setDT b).tFrame = s.tFrame := rfl
@[simp] theorem State.setDT_input (b : Byte) : (s.setDT b).input = s.input := rfl
@[simp] theorem State.setDT_script (b : Byte) : (s.setDT b).script = s.script := rfl
@[simp] theorem State.setDT_freeCount (b : Byte) : (s.setDT b).freeCount = s.freeCount := rfl
@[simp] theorem State.setDT_presents (b : Byte) : (s.setDT b).presents = s.presents := rfl
@[simp] theorem State.getV_setDT (b : Byte) (q : Reg) : (s.setDT b).getV q = s.getV q := rfl

/-! ### setST -/

@[simp] theorem State.setST_v (b : Byte) : (s.setST b).v = s.v := rfl
@[simp] theorem State.setST_i (b : Byte) : (s.setST b).i = s.i := rfl
@[simp] theorem State.setST_pc (b : Byte) : (s.setST b).pc = s.pc := rfl
@[simp] theorem State.setST_stack (b : Byte) : (s.setST b).stack = s.stack := rfl
@[simp] theorem State.setST_dt (b : Byte) : (s.setST b).dt = s.dt := rfl
@[simp] theorem State.setST_st (b : Byte) : (s.setST b).st = b := rfl
@[simp] theorem State.setST_mem (b : Byte) : (s.setST b).mem = s.mem := rfl
@[simp] theorem State.setST_plane (b : Byte) : (s.setST b).plane = s.plane := rfl
@[simp] theorem State.setST_dirty (b : Byte) : (s.setST b).dirty = s.dirty := rfl
@[simp] theorem State.setST_halted (b : Byte) : (s.setST b).halted = s.halted := rfl
@[simp] theorem State.setST_fault (b : Byte) : (s.setST b).fault = s.fault := rfl
@[simp] theorem State.setST_cfg (b : Byte) : (s.setST b).cfg = s.cfg := rfl
@[simp] theorem State.setST_tInsn (b : Byte) : (s.setST b).tInsn = s.tInsn := rfl
@[simp] theorem State.setST_tFrame (b : Byte) : (s.setST b).tFrame = s.tFrame := rfl
@[simp] theorem State.setST_input (b : Byte) : (s.setST b).input = s.input := rfl
@[simp] theorem State.setST_script (b : Byte) : (s.setST b).script = s.script := rfl
@[simp] theorem State.setST_freeCount (b : Byte) : (s.setST b).freeCount = s.freeCount := rfl
@[simp] theorem State.setST_presents (b : Byte) : (s.setST b).presents = s.presents := rfl
@[simp] theorem State.getV_setST (b : Byte) (q : Reg) : (s.setST b).getV q = s.getV q := rfl

/-! ### setPc -/

@[simp] theorem State.setPc_v (a : Word) : (s.setPc a).v = s.v := rfl
@[simp] theorem State.setPc_i (a : Word) : (s.setPc a).i = s.i := rfl
@[simp] theorem State.setPc_pc (a : Word) : (s.setPc a).pc = a := rfl
@[simp] theorem State.setPc_stack (a : Word) : (s.setPc a).stack = s.stack := rfl
@[simp] theorem State.setPc_dt (a : Word) : (s.setPc a).dt = s.dt := rfl
@[simp] theorem State.setPc_st (a : Word) : (s.setPc a).st = s.st := rfl
@[simp] theorem State.setPc_mem (a : Word) : (s.setPc a).mem = s.mem := rfl
@[simp] theorem State.setPc_plane (a : Word) : (s.setPc a).plane = s.plane := rfl
@[simp] theorem State.setPc_dirty (a : Word) : (s.setPc a).dirty = s.dirty := rfl
@[simp] theorem State.setPc_halted (a : Word) : (s.setPc a).halted = s.halted := rfl
@[simp] theorem State.setPc_fault (a : Word) : (s.setPc a).fault = s.fault := rfl
@[simp] theorem State.setPc_cfg (a : Word) : (s.setPc a).cfg = s.cfg := rfl
@[simp] theorem State.setPc_tInsn (a : Word) : (s.setPc a).tInsn = s.tInsn := rfl
@[simp] theorem State.setPc_tFrame (a : Word) : (s.setPc a).tFrame = s.tFrame := rfl
@[simp] theorem State.setPc_input (a : Word) : (s.setPc a).input = s.input := rfl
@[simp] theorem State.setPc_script (a : Word) : (s.setPc a).script = s.script := rfl
@[simp] theorem State.setPc_freeCount (a : Word) : (s.setPc a).freeCount = s.freeCount := rfl
@[simp] theorem State.setPc_presents (a : Word) : (s.setPc a).presents = s.presents := rfl
@[simp] theorem State.getV_setPc (a : Word) (q : Reg) : (s.setPc a).getV q = s.getV q := rfl

/-! ### push -/

@[simp] theorem State.push_v (a : Word) : (s.push a).v = s.v := rfl
@[simp] theorem State.push_i (a : Word) : (s.push a).i = s.i := rfl
@[simp] theorem State.push_pc (a : Word) : (s.push a).pc = s.pc := rfl
@[simp] theorem State.push_stack (a : Word) : (s.push a).stack = s.stack ++ [a] := rfl
@[simp] theorem State.push_dt (a : Word) : (s.push a).dt = s.dt := rfl
@[simp] theorem State.push_st (a : Word) : (s.push a).st = s.st := rfl
@[simp] theorem State.push_mem (a : Word) : (s.push a).mem = s.mem := rfl
@[simp] theorem State.push_plane (a : Word) : (s.push a).plane = s.plane := rfl
@[simp] theorem State.push_dirty (a : Word) : (s.push a).dirty = s.dirty := rfl
@[simp] theorem State.push_halted (a : Word) : (s.push a).halted = s.halted := rfl
@[simp] theorem State.push_fault (a : Word) : (s.push a).fault = s.fault := rfl
@[simp] theorem State.push_cfg (a : Word) : (s.push a).cfg = s.cfg := rfl
@[simp] theorem State.push_tInsn (a : Word) : (s.push a).tInsn = s.tInsn := rfl
@[simp] theorem State.push_tFrame (a : Word) : (s.push a).tFrame = s.tFrame := rfl
@[simp] theorem State.push_input (a : Word) : (s.push a).input = s.input := rfl
@[simp] theorem State.push_script (a : Word) : (s.push a).script = s.script := rfl
@[simp] theorem State.push_freeCount (a : Word) : (s.push a).freeCount = s.freeCount := rfl
@[simp] theorem State.push_presents (a : Word) : (s.push a).presents = s.presents := rfl
@[simp] theorem State.getV_push (a : Word) (q : Reg) : (s.push a).getV q = s.getV q := rfl

/-! ### raise -/

@[simp] theorem State.raise_v (c : FaultCause) (p a : Word) (n : Nat) (w : Option Word) : (s.raise c p a n w).v = s.v := rfl
@[simp] theorem State.raise_i (c : FaultCause) (p a : Word) (n : Nat) (w : Option Word) : (s.raise c p a n w).i = s.i := rfl
@[simp] theorem State.raise_pc (c : FaultCause) (p a : Word) (n : Nat) (w : Option Word) : (s.raise c p a n w).pc = s.pc := rfl
@[simp] theorem State.raise_stack (c : FaultCause) (p a : Word) (n : Nat) (w : Option Word) : (s.raise c p a n w).stack = s.stack := rfl
@[simp] theorem State.raise_dt (c : FaultCause) (p a : Word) (n : Nat) (w : Option Word) : (s.raise c p a n w).dt = s.dt := rfl
@[simp] theorem State.raise_st (c : FaultCause) (p a : Word) (n : Nat) (w : Option Word) : (s.raise c p a n w).st = s.st := rfl
@[simp] theorem State.raise_mem (c : FaultCause) (p a : Word) (n : Nat) (w : Option Word) : (s.raise c p a n w).mem = s.mem := rfl
@[simp] theorem State.raise_plane (c : FaultCause) (p a : Word) (n : Nat) (w : Option Word) : (s.raise c p a n w).plane = s.plane := rfl
@[simp] theorem State.raise_dirty (c : FaultCause) (p a : Word) (n : Nat) (w : Option Word) : (s.raise c p a n w).dirty = s.dirty := rfl
@[simp] theorem State.raise_halted (c : FaultCause) (p a : Word) (n : Nat) (w : Option Word) : (s.raise c p a n w).halted = true := rfl
@[simp] theorem State.raise_fault (c : FaultCause) (p a : Word) (n : Nat) (w : Option Word) : (s.raise c p a n w).fault = some { cause := c, pc := p, addr := a, len := n, opcode := w } := rfl
@[simp] theorem State.raise_cfg (c : FaultCause) (p a : Word) (n : Nat) (w : Option Word) : (s.raise c p a n w).cfg = s.cfg := rfl
@[simp] theorem State.raise_tInsn (c : FaultCause) (p a : Word) (n : Nat) (w : Option Word) : (s.raise c p a n w).tInsn = s.tInsn := rfl
@[simp] theorem State.raise_tFrame (c : FaultCause) (p a : Word) (n : Nat) (w : Option Word) : (s.raise c p a n w).tFrame = s.tFrame := rfl
@[simp] theorem State.raise_input (c : FaultCause) (p a : Word) (n : Nat) (w : Option Word) : (s.raise c p a n w).input = s.input := rfl
@[simp] theorem State.raise_script (c : FaultCause) (p a : Word) (n : Nat) (w : Option Word) : (s.raise c p a n w).script = s.script := rfl
@[simp] theorem State.raise_freeCount (c : FaultCause) (p a : Word) (n : Nat) (w : Option Word) : (s.raise c p a n w).freeCount = s.freeCount := rfl
@[simp] theorem State.raise_presents (c : FaultCause) (p a : Word) (n : Nat) (w : Option Word) : (s.raise c p a n w).presents = s.presents := rfl
@[simp] theorem State.getV_raise (c : FaultCause) (p a : Word) (n : Nat) (w : Option Word) (q : Reg) : (s.raise c p a n w).getV q = s.getV q := rfl

/-! ### planeClear -/

@[simp] theorem State.planeClear_v : s.planeClear.v = s.v := rfl
@[simp] theorem State.planeClear_i : s.planeClear.i = s.i := rfl
@[simp] theorem State.planeClear_pc : s.planeClear.pc = s.pc := rfl
@[simp] theorem State.planeClear_stack : s.planeClear.stack = s.stack := rfl
@[simp] theorem State.planeClear_dt : s.planeClear.dt = s.dt := rfl
@[simp] theorem State.planeClear_st : s.planeClear.st = s.st := rfl
@[simp] theorem State.planeClear_mem : s.planeClear.mem = s.mem := rfl
@[simp] theorem State.planeClear_plane : s.planeClear.plane = 0 := rfl
@[simp] theorem State.planeClear_dirty : s.planeClear.dirty = true := rfl
@[simp] theorem State.planeClear_halted : s.planeClear.halted = s.halted := rfl
@[simp] theorem State.planeClear_fault : s.planeClear.fault = s.fault := rfl
@[simp] theorem State.planeClear_cfg : s.planeClear.cfg = s.cfg := rfl
@[simp] theorem State.planeClear_tInsn : s.planeClear.tInsn = s.tInsn := rfl
@[simp] theorem State.planeClear_tFrame : s.planeClear.tFrame = s.tFrame := rfl
@[simp] theorem State.planeClear_input : s.planeClear.input = s.input := rfl
@[simp] theorem State.planeClear_script : s.planeClear.script = s.script := rfl
@[simp] theorem State.planeClear_freeCount : s.planeClear.freeCount = s.freeCount := rfl
@[simp] theorem State.planeClear_presents : s.planeClear.presents = s.presents := rfl
@[simp] theorem State.getV_planeClear (q : Reg) : s.planeClear.getV q = s.getV q := rfl

/-! ### advanceInsnClock -/

@[simp] theorem State.advanceInsnClock_v : s.advanceInsnClock.v = s.v := rfl
@[simp] theorem State.advanceInsnClock_i : s.advanceInsnClock.i = s.i := rfl
@[simp] theorem State.advanceInsnClock_pc : s.advanceInsnClock.pc = s.pc := rfl
@[simp] theorem State.advanceInsnClock_stack : s.advanceInsnClock.stack = s.stack := rfl
@[simp] theorem State.advanceInsnClock_dt : s.advanceInsnClock.dt = s.dt := rfl
@[simp] theorem State.advanceInsnClock_st : s.advanceInsnClock.st = s.st := rfl
@[simp] theorem State.advanceInsnClock_mem : s.advanceInsnClock.mem = s.mem := rfl
@[simp] theorem State.advanceInsnClock_plane : s.advanceInsnClock.plane = s.plane := rfl
@[simp] theorem State.advanceInsnClock_dirty : s.advanceInsnClock.dirty = s.dirty := rfl
@[simp] theorem State.advanceInsnClock_halted : s.advanceInsnClock.halted = s.halted := rfl
@[simp] theorem State.advanceInsnClock_fault : s.advanceInsnClock.fault = s.fault := rfl
@[simp] theorem State.advanceInsnClock_cfg : s.advanceInsnClock.cfg = s.cfg := rfl
@[simp] theorem State.advanceInsnClock_tInsn : s.advanceInsnClock.tInsn = s.tInsn + s.cfg.tickUs := rfl
@[simp] theorem State.advanceInsnClock_tFrame : s.advanceInsnClock.tFrame = s.tFrame := rfl
@[simp] theorem State.advanceInsnClock_input : s.advanceInsnClock.input = s.input := rfl
@[simp] theorem State.advanceInsnClock_script : s.advanceInsnClock.script = s.script := rfl
@[simp] theorem State.advanceInsnClock_freeCount : s.advanceInsnClock.freeCount = s.freeCount := rfl
@[simp] theorem State.advanceInsnClock_presents : s.advanceInsnClock.presents = s.presents := rfl
@[simp] theorem State.getV_advanceInsnClock (q : Reg) : s.advanceInsnClock.getV q = s.getV q := rfl

/-! ### advanceFrameClock -/

@[simp] theorem State.advanceFrameClock_v : s.advanceFrameClock.v = s.v := rfl
@[simp] theorem State.advanceFrameClock_i : s.advanceFrameClock.i = s.i := rfl
@[simp] theorem State.advanceFrameClock_pc : s.advanceFrameClock.pc = s.pc := rfl
@[simp] theorem State.advanceFrameClock_stack : s.advanceFrameClock.stack = s.stack := rfl
@[simp] theorem State.advanceFrameClock_dt : s.advanceFrameClock.dt = s.dt := rfl
@[simp] theorem State.advanceFrameClock_st : s.advanceFrameClock.st = s.st := rfl
@[simp] theorem State.advanceFrameClock_mem : s.advanceFrameClock.mem = s.mem := rfl
@[simp] theorem State.advanceFrameClock_plane : s.advanceFrameClock.plane = s.plane := rfl
@[simp] theorem State.advanceFrameClock_dirty : s.advanceFrameClock.dirty = s.dirty := rfl
@[simp] theorem State.advanceFrameClock_halted : s.advanceFrameClock.halted = s.halted := rfl
@[simp] theorem State.advanceFrameClock_fault : s.advanceFrameClock.fault = s.fault := rfl
@[simp] theorem State.advanceFrameClock_cfg : s.advanceFrameClock.cfg = s.cfg := rfl
@[simp] theorem State.advanceFrameClock_tInsn : s.advanceFrameClock.tInsn = s.tInsn := rfl
@[simp] theorem State.advanceFrameClock_tFrame : s.advanceFrameClock.tFrame = s.tFrame + frameUs := rfl
@[simp] theorem State.advanceFrameClock_input : s.advanceFrameClock.input = s.input := rfl
@[simp] theorem State.advanceFrameClock_script : s.advanceFrameClock.script = s.script := rfl
@[simp] theorem State.advanceFrameClock_freeCount : s.advanceFrameClock.freeCount = s.freeCount := rfl
@[simp] theorem State.advanceFrameClock_presents : s.advanceFrameClock.presents = s.presents := rfl
@[simp] theorem State.getV_advanceFrameClock (q : Reg) : s.advanceFrameClock.getV q = s.getV q := rfl

/-! ### withClock -/

@[simp] theorem State.withClock_v (c : Clock) : (s.withClock c).v = s.v := rfl
@[simp] theorem State.withClock_i (c : Clock) : (s.withClock c).i = s.i := rfl
@[simp] theorem State.withClock_pc (c : Clock) : (s.withClock c).pc = s.pc := rfl
@[simp] theorem State.withClock_stack (c : Clock) : (s.withClock c).stack = s.stack := rfl
@[simp] theorem State.withClock_dt (c : Clock) : (s.withClock c).dt = s.dt := rfl
@[simp] theorem State.withClock_st (c : Clock) : (s.withClock c).st = s.st := rfl
@[simp] theorem State.withClock_mem (c : Clock) : (s.withClock c).mem = s.mem := rfl
@[simp] theorem State.withClock_plane (c : Clock) : (s.withClock c).plane = s.plane := rfl
@[simp] theorem State.withClock_dirty (c : Clock) : (s.withClock c).dirty = s.dirty := rfl
@[simp] theorem State.withClock_halted (c : Clock) : (s.withClock c).halted = s.halted := rfl
@[simp] theorem State.withClock_fault (c : Clock) : (s.withClock c).fault = s.fault := rfl
@[simp] theorem State.withClock_cfg (c : Clock) : (s.withClock c).cfg = s.cfg := rfl
@[simp] theorem State.withClock_tInsn (c : Clock) : (s.withClock c).tInsn = s.tInsn := rfl
@[simp] theorem State.withClock_tFrame (c : Clock) : (s.withClock c).tFrame = s.tFrame := rfl
@[simp] theorem State.withClock_input (c : Clock) : (s.withClock c).input = { s.input with clock := c } := rfl
@[simp] theorem State.withClock_script (c : Clock) : (s.withClock c).script = s.script := rfl
@[simp] theorem State.withClock_freeCount (c : Clock) : (s.withClock c).freeCount = s.freeCount := rfl
@[simp] theorem State.withClock_presents (c : Clock) : (s.withClock c).presents = s.presents := rfl
@[simp] theorem State.getV_withClock (c : Clock) (q : Reg) : (s.withClock c).getV q = s.getV q := rfl

/-! ### withRand -/

@[simp] theorem State.withRand_v (r : Byte) : (s.withRand r).v = s.v := rfl
@[simp] theorem State.withRand_i (r : Byte) : (s.withRand r).i = s.i := rfl
@[simp] theorem State.withRand_pc (r : Byte) : (s.withRand r).pc = s.pc := rfl
@[simp] theorem State.withRand_stack (r : Byte) : (s.withRand r).stack = s.stack := rfl
@[simp] theorem State.withRand_dt (r : Byte) : (s.withRand r).dt = s.dt := rfl
@[simp] theorem State.withRand_st (r : Byte) : (s.withRand r).st = s.st := rfl
@[simp] theorem State.withRand_mem (r : Byte) : (s.withRand r).mem = s.mem := rfl
@[simp] theorem State.withRand_plane (r : Byte) : (s.withRand r).plane = s.plane := rfl
@[simp] theorem State.withRand_dirty (r : Byte) : (s.withRand r).dirty = s.dirty := rfl
@[simp] theorem State.withRand_halted (r : Byte) : (s.withRand r).halted = s.halted := rfl
@[simp] theorem State.withRand_fault (r : Byte) : (s.withRand r).fault = s.fault := rfl
@[simp] theorem State.withRand_cfg (r : Byte) : (s.withRand r).cfg = s.cfg := rfl
@[simp] theorem State.withRand_tInsn (r : Byte) : (s.withRand r).tInsn = s.tInsn := rfl
@[simp] theorem State.withRand_tFrame (r : Byte) : (s.withRand r).tFrame = s.tFrame := rfl
@[simp] theorem State.withRand_input (r : Byte) : (s.withRand r).input = { s.input with rand := r } := rfl
@[simp] theorem State.withRand_script (r : Byte) : (s.withRand r).script = s.script := rfl
@[simp] theorem State.withRand_freeCount (r : Byte) : (s.withRand r).freeCount = s.freeCount := rfl
@[simp] theorem State.withRand_presents (r : Byte) : (s.withRand r).presents = s.presents := rfl
@[simp] theorem State.getV_withRand (r : Byte) (q : Reg) : (s.withRand r).getV q = s.getV q := rfl

/-! ### withKeys -/

@[simp] theorem State.withKeys_v (k : BitVec 16) (p : Nat) : (s.withKeys k p).v = s.v := rfl
@[simp] theorem State.withKeys_i (k : BitVec 16) (p : Nat) : (s.withKeys k p).i = s.i := rfl
@[simp] theorem State.withKeys_pc (k : BitVec 16) (p : Nat) : (s.withKeys k p).pc = s.pc := rfl
@[simp] theorem State.withKeys_stack (k : BitVec 16) (p : Nat) : (s.withKeys k p).stack = s.stack := rfl
@[simp] theorem State.withKeys_dt (k : BitVec 16) (p : Nat) : (s.withKeys k p).dt = s.dt := rfl
@[simp] theorem State.withKeys_st (k : BitVec 16) (p : Nat) : (s.withKeys k p).st = s.st := rfl
@[simp] theorem State.withKeys_mem (k : BitVec 16) (p : Nat) : (s.withKeys k p).mem = s.mem := rfl
@[simp] theorem State.withKeys_plane (k : BitVec 16) (p : Nat) : (s.withKeys k p).plane = s.plane := rfl
@[simp] theorem State.withKeys_dirty (k : BitVec 16) (p : Nat) : (s.withKeys k p).dirty = s.dirty := rfl
@[simp] theorem State.withKeys_halted (k : BitVec 16) (p : Nat) : (s.withKeys k p).halted = s.halted := rfl
@[simp] theorem State.withKeys_fault (k : BitVec 16) (p : Nat) : (s.withKeys k p).fault = s.fault := rfl
@[simp] theorem State.withKeys_cfg (k : BitVec 16) (p : Nat) : (s.withKeys k p).cfg = s.cfg := rfl
@[simp] theorem State.withKeys_tInsn (k : BitVec 16) (p : Nat) : (s.withKeys k p).tInsn = s.tInsn := rfl
@[simp] theorem State.withKeys_tFrame (k : BitVec 16) (p : Nat) : (s.withKeys k p).tFrame = s.tFrame := rfl
@[simp] theorem State.withKeys_input (k : BitVec 16) (p : Nat) : (s.withKeys k p).input = { s.input with keyDown := k, keyPick := p } := rfl
@[simp] theorem State.withKeys_script (k : BitVec 16) (p : Nat) : (s.withKeys k p).script = s.script := rfl
@[simp] theorem State.withKeys_freeCount (k : BitVec 16) (p : Nat) : (s.withKeys k p).freeCount = s.freeCount := rfl
@[simp] theorem State.withKeys_presents (k : BitVec 16) (p : Nat) : (s.withKeys k p).presents = s.presents := rfl
@[simp] theorem State.getV_withKeys (k : BitVec 16) (p : Nat) (q : Reg) : (s.withKeys k p).getV q = s.getV q := rfl

/-! ### setV read back -/

/-- Reading a register after writing one. -/
@[simp] theorem State.getV_setV (r q : Reg) (b : Byte) :
    (s.setV r b).getV q = if q = r then b else s.getV q := by
  unfold State.getV State.setV
  simp only [Vector.getElem_set]
  by_cases h : q = r
  · simp [h]
  · have : r.toNat ≠ q.toNat := fun e => h (BitVec.eq_of_toNat_eq e.symm)
    simp [h, this]

/-- Two states with the same registers read the same. -/
theorem State.getV_congr {s t : State} (h : t.v = s.v) (q : Reg) : t.getV q = s.getV q := by
  unfold State.getV; rw [h]

/-! ### setFlag and setVWithFlag -/

@[simp] theorem State.setFlag_i (b : Bool) : (s.setFlag b).i = s.i := rfl
@[simp] theorem State.setFlag_pc (b : Bool) : (s.setFlag b).pc = s.pc := rfl
@[simp] theorem State.setFlag_stack (b : Bool) : (s.setFlag b).stack = s.stack := rfl
@[simp] theorem State.setFlag_dt (b : Bool) : (s.setFlag b).dt = s.dt := rfl
@[simp] theorem State.setFlag_st (b : Bool) : (s.setFlag b).st = s.st := rfl
@[simp] theorem State.setFlag_mem (b : Bool) : (s.setFlag b).mem = s.mem := rfl
@[simp] theorem State.setFlag_plane (b : Bool) : (s.setFlag b).plane = s.plane := rfl
@[simp] theorem State.setFlag_dirty (b : Bool) : (s.setFlag b).dirty = s.dirty := rfl
@[simp] theorem State.setFlag_halted (b : Bool) : (s.setFlag b).halted = s.halted := rfl
@[simp] theorem State.setFlag_fault (b : Bool) : (s.setFlag b).fault = s.fault := rfl
@[simp] theorem State.setFlag_cfg (b : Bool) : (s.setFlag b).cfg = s.cfg := rfl
@[simp] theorem State.setFlag_tInsn (b : Bool) : (s.setFlag b).tInsn = s.tInsn := rfl
@[simp] theorem State.setFlag_tFrame (b : Bool) : (s.setFlag b).tFrame = s.tFrame := rfl
@[simp] theorem State.setFlag_input (b : Bool) : (s.setFlag b).input = s.input := rfl
@[simp] theorem State.setFlag_script (b : Bool) : (s.setFlag b).script = s.script := rfl
@[simp] theorem State.setFlag_freeCount (b : Bool) : (s.setFlag b).freeCount = s.freeCount := rfl
@[simp] theorem State.setFlag_presents (b : Bool) : (s.setFlag b).presents = s.presents := rfl
@[simp] theorem State.setVWithFlag_i (r : Reg) (b : Byte) (c : Bool) : (s.setVWithFlag r b c).i = s.i := rfl
@[simp] theorem State.setVWithFlag_pc (r : Reg) (b : Byte) (c : Bool) : (s.setVWithFlag r b c).pc = s.pc := rfl
@[simp] theorem State.setVWithFlag_stack (r : Reg) (b : Byte) (c : Bool) : (s.setVWithFlag r b c).stack = s.stack := rfl
@[simp] theorem State.setVWithFlag_dt (r : Reg) (b : Byte) (c : Bool) : (s.setVWithFlag r b c).dt = s.dt := rfl
@[simp] theorem State.setVWithFlag_st (r : Reg) (b : Byte) (c : Bool) : (s.setVWithFlag r b c).st = s.st := rfl
@[simp] theorem State.setVWithFlag_mem (r : Reg) (b : Byte) (c : Bool) : (s.setVWithFlag r b c).mem = s.mem := rfl
@[simp] theorem State.setVWithFlag_plane (r : Reg) (b : Byte) (c : Bool) : (s.setVWithFlag r b c).plane = s.plane := rfl
@[simp] theorem State.setVWithFlag_dirty (r : Reg) (b : Byte) (c : Bool) : (s.setVWithFlag r b c).dirty = s.dirty := rfl
@[simp] theorem State.setVWithFlag_halted (r : Reg) (b : Byte) (c : Bool) : (s.setVWithFlag r b c).halted = s.halted := rfl
@[simp] theorem State.setVWithFlag_fault (r : Reg) (b : Byte) (c : Bool) : (s.setVWithFlag r b c).fault = s.fault := rfl
@[simp] theorem State.setVWithFlag_cfg (r : Reg) (b : Byte) (c : Bool) : (s.setVWithFlag r b c).cfg = s.cfg := rfl
@[simp] theorem State.setVWithFlag_tInsn (r : Reg) (b : Byte) (c : Bool) : (s.setVWithFlag r b c).tInsn = s.tInsn := rfl
@[simp] theorem State.setVWithFlag_tFrame (r : Reg) (b : Byte) (c : Bool) : (s.setVWithFlag r b c).tFrame = s.tFrame := rfl
@[simp] theorem State.setVWithFlag_input (r : Reg) (b : Byte) (c : Bool) : (s.setVWithFlag r b c).input = s.input := rfl
@[simp] theorem State.setVWithFlag_script (r : Reg) (b : Byte) (c : Bool) : (s.setVWithFlag r b c).script = s.script := rfl
@[simp] theorem State.setVWithFlag_freeCount (r : Reg) (b : Byte) (c : Bool) : (s.setVWithFlag r b c).freeCount = s.freeCount := rfl
@[simp] theorem State.setVWithFlag_presents (r : Reg) (b : Byte) (c : Bool) : (s.setVWithFlag r b c).presents = s.presents := rfl

/-- A flag write replaces VF and no other register. -/
@[simp] theorem State.getV_setFlag (b : Bool) (q : Reg) :
    (s.setFlag b).getV q = if q = 15 then flagByte b else s.getV q := by
  simp [State.setFlag, regVF]

/-- The flag is written last. -/
@[simp] theorem State.getV_setVWithFlag (r q : Reg) (b : Byte) (c : Bool) :
    (s.setVWithFlag r b c).getV q = if q = 15 then flagByte c else if q = r then b else s.getV q := by
  simp [State.setVWithFlag]

/-! ### nextInput: only the input fields move -/

@[simp] theorem State.nextInput_v : s.nextInput.v = s.v := by
  unfold State.nextInput; split <;> rfl
@[simp] theorem State.nextInput_i : s.nextInput.i = s.i := by
  unfold State.nextInput; split <;> rfl
@[simp] theorem State.nextInput_pc : s.nextInput.pc = s.pc := by
  unfold State.nextInput; split <;> rfl
@[simp] theorem State.nextInput_stack : s.nextInput.stack = s.stack := by
  unfold State.nextInput; split <;> rfl
@[simp] theorem State.nextInput_dt : s.nextInput.dt = s.dt := by
  unfold State.nextInput; split <;> rfl
@[simp] theorem State.nextInput_st : s.nextInput.st = s.st := by
  unfold State.nextInput; split <;> rfl
@[simp] theorem State.nextInput_mem : s.nextInput.mem = s.mem := by
  unfold State.nextInput; split <;> rfl
@[simp] theorem State.nextInput_plane : s.nextInput.plane = s.plane := by
  unfold State.nextInput; split <;> rfl
@[simp] theorem State.nextInput_dirty : s.nextInput.dirty = s.dirty := by
  unfold State.nextInput; split <;> rfl
@[simp] theorem State.nextInput_halted : s.nextInput.halted = s.halted := by
  unfold State.nextInput; split <;> rfl
@[simp] theorem State.nextInput_fault : s.nextInput.fault = s.fault := by
  unfold State.nextInput; split <;> rfl
@[simp] theorem State.nextInput_cfg : s.nextInput.cfg = s.cfg := by
  unfold State.nextInput; split <;> rfl
@[simp] theorem State.nextInput_tInsn : s.nextInput.tInsn = s.tInsn := by
  unfold State.nextInput; split <;> rfl
@[simp] theorem State.nextInput_tFrame : s.nextInput.tFrame = s.tFrame := by
  unfold State.nextInput; split <;> rfl
@[simp] theorem State.nextInput_presents : s.nextInput.presents = s.presents := by
  unfold State.nextInput; split <;> rfl
@[simp] theorem State.getV_nextInput (q : Reg) : s.nextInput.getV q = s.getV q :=
  State.getV_congr (State.nextInput_v s) q

end Sys2Proof.Machine
end

