-- ==== Sys2Proof/Laws/Ops.lean ====
section
/-! SUPPORT. One lemma for each shared operation: everything it can do. -/

namespace Sys2Proof.Machine

/-! ### Memory blocks (R64) -/

theorem State.memRead_of_fits {s : State} {a : Word} {n : Nat} (h : a.toNat + n ≤ 4096) :
    s.memRead a n = some (s.mem.readBlock a.toNat n) := by
  simp [State.memRead, inRange, h]

theorem State.memRead_of_overrun {s : State} {a : Word} {n : Nat} (h : 4096 < a.toNat + n) :
    s.memRead a n = none := by
  simp [State.memRead, inRange, Nat.not_le.mpr h]

theorem State.memWrite_of_fits {s : State} {a : Word} {bs : List Byte} (h : a.toNat + bs.length ≤ 4096) :
    s.memWrite a bs = some { s with mem := s.mem.writeBlock a.toNat bs } := by
  simp [State.memWrite, inRange, h]

theorem State.memWrite_of_overrun {s : State} {a : Word} {bs : List Byte} (h : 4096 < a.toNat + bs.length) :
    s.memWrite a bs = none := by
  simp [State.memWrite, inRange, Nat.not_le.mpr h]

/-- A block store either writes the whole block or raises `WRITE_RANGE` (R64, R240). -/
theorem State.storeBlock_cases (s : State) (insn : Instr) (bs : List Byte) :
    (s.i.toNat + bs.length ≤ 4096 ∧
        s.storeBlock insn bs = { s with mem := s.mem.writeBlock s.i.toNat bs }) ∨
    (4096 < s.i.toNat + bs.length ∧ s.storeBlock insn bs = s.raiseIn insn .writeRange s.i bs.length) := by
  unfold State.storeBlock
  rcases Nat.lt_or_ge 4096 (s.i.toNat + bs.length) with h | h
  · exact .inr ⟨h, by rw [State.memWrite_of_overrun h]⟩
  · exact .inl ⟨h, by rw [State.memWrite_of_fits h]⟩

/-- The fetch reads two bytes, the first the high one, or fails (R66). -/
theorem State.fetch16_of_fits {s : State} {a : Word} (h : a.toNat + 2 ≤ 4096) :
    s.fetch16 a = some (s.mem.read a.toNat ++ s.mem.read (a.toNat + 1)) := by
  simp [State.fetch16, inRange, h, wordOfBytes]

theorem State.fetch16_of_overrun {s : State} {a : Word} (h : 4096 < a.toNat + 2) : s.fetch16 a = none := by
  simp [State.fetch16, inRange, Nat.not_le.mpr h]

/-! ### Faults (R240 to R243) -/

/-- A fault raised in an instruction sets the record and halts; every other field stays. -/
theorem State.raiseIn_eq (s : State) (insn : Instr) (c : FaultCause) (a : Word) (n : Nat) :
    s.raiseIn insn c a n =
      { s with
        halted := true
        fault := some { cause := c, pc := s.pc - 2, addr := a, len := n, opcode := some (encode insn) } } := rfl

/-! ### Call stack (R25, R121) -/

theorem State.popToPc_nil {s : State} (h : s.stack = []) : s.popToPc = s := by
  simp [State.popToPc, h]

theorem State.popToPc_concat {s : State} {below : List Word} {top : Word} (h : s.stack = below ++ [top]) :
    s.popToPc = { s with stack := below, pc := top } := by
  simp [State.popToPc, h]

/-- RET's pop either does nothing or moves the top entry to `pc`. -/
theorem State.popToPc_cases (s : State) :
    (s.stack = [] ∧ s.popToPc = s) ∨
    ∃ below top, s.stack = below ++ [top] ∧ s.popToPc = { s with stack := below, pc := top } := by
  rcases List.eq_nil_or_concat s.stack with h | ⟨below, top, h⟩ <;> try rw [List.concat_eq_append] at h
  · exact .inl ⟨h, State.popToPc_nil h⟩
  · exact .inr ⟨below, top, h, State.popToPc_concat h⟩

/-! ### Register blocks (R226) -/

/-- A register loaded from a block: byte `q − k`, if the block reaches it. -/
theorem State.getV_loadRegs (s : State) (bs : List Byte) (k : Nat) (q : Reg) (h : k + bs.length ≤ 16) :
    (s.loadRegs bs k).getV q =
      if k ≤ q.toNat ∧ q.toNat < k + bs.length then bs.getD (q.toNat - k) 0 else s.getV q := by
  induction bs generalizing s k with
  | nil =>
    have : ¬(k ≤ q.toNat ∧ q.toNat < k) := by omega
    simp [State.loadRegs, this]
  | cons b bs ih =>
    simp only [List.length_cons] at h
    rw [State.loadRegs, ih _ _ (by omega), State.getV_setV]
    have hq : q = BitVec.ofNat 4 k ↔ q.toNat = k := by
      rw [← BitVec.toNat_inj, BitVec.toNat_ofNat, Nat.mod_eq_of_lt (by omega)]
    by_cases h1 : k + 1 ≤ q.toNat ∧ q.toNat < k + 1 + bs.length
    · rw [if_pos h1, if_pos (by simp only [List.length_cons]; omega)]
      have : q.toNat - k = (q.toNat - (k + 1)) + 1 := by omega
      rw [this, List.getD_cons_succ]
    · rw [if_neg h1]
      by_cases h2 : q.toNat = k
      · rw [if_pos (hq.mpr h2), if_pos (by simp only [List.length_cons]; omega), h2, Nat.sub_self]
        rfl
      · rw [if_neg (fun e => h2 (hq.mp e)), if_neg (by simp only [List.length_cons]; omega)]

/-- Loading registers changes registers only. -/
theorem State.loadRegs_frame (s : State) (bs : List Byte) (k : Nat) :
    ∃ w : Vector Byte 16, s.loadRegs bs k = { s with v := w } := by
  induction bs generalizing s k with
  | nil => exact ⟨s.v, rfl⟩
  | cons b bs ih =>
    obtain ⟨w, hw⟩ := ih (s.setV (BitVec.ofNat 4 k) b) (k + 1)
    exact ⟨w, hw⟩

/-! ### The keypad (R262, R263) -/

theorem mem_downKeys {keys : BitVec 16} {k : Nat} :
    k ∈ downKeys keys ↔ k < 16 ∧ keys.getLsbD k = true := by
  simp [downKeys]

/-- No key down: `AnyKey()` is none. -/
theorem State.anyKey_none {s : State} (h : s.input.keyDown = 0) : s.anyKey = none := by
  have : downKeys s.input.keyDown = [] := by
    rw [List.eq_nil_iff_forall_not_mem]
    intro k hk
    simp [mem_downKeys, h] at hk
  simp [State.anyKey, this]

/-- Some key down: `AnyKey()` is one of the down keys. -/
theorem State.anyKey_some {s : State} (h : s.input.keyDown ≠ 0) :
    ∃ k, k < 16 ∧ s.input.keyDown.getLsbD k = true ∧ s.anyKey = some (BitVec.ofNat 8 k) := by
  have hne : downKeys s.input.keyDown ≠ [] := by
    intro e
    apply h
    apply BitVec.eq_of_getLsbD_eq
    intro i hi
    have : i ∉ downKeys s.input.keyDown := by simp [e]
    simpa [mem_downKeys, hi] using this
  have hlt : s.input.keyPick % (downKeys s.input.keyDown).length < (downKeys s.input.keyDown).length :=
    Nat.mod_lt _ (List.length_pos_iff.mpr hne)
  have hm := mem_downKeys.mp (List.getElem_mem hlt)
  exact ⟨_, hm.1, hm.2, by simp [State.anyKey, List.getElem?_eq_getElem hlt]⟩

/-- The pick is a free input: every down key is reported for some pick (R263). -/
theorem State.anyKey_every {s : State} {k : Nat} (hk : k < 16) (h : s.input.keyDown.getLsbD k = true) :
    ∃ pick, (s.withKeys s.input.keyDown pick).anyKey = some (BitVec.ofNat 8 k) := by
  obtain ⟨i, hi, e⟩ := List.getElem_of_mem (mem_downKeys.mpr ⟨hk, h⟩)
  exact ⟨i, by simp [State.anyKey, Nat.mod_eq_of_lt hi, hi, e]⟩

/-! ### The environment and outcomes -/

/-- The environment moves on to the next scripted input, or to a free one. -/
theorem State.nextInput_cases (s : State) :
    (∃ inp rest, s.script = inp :: rest ∧ s.nextInput = { s with input := inp, script := rest }) ∨
    (s.script = [] ∧
      s.nextInput = { s with input := Config.freeInput s.freeCount, freeCount := s.freeCount + 1 }) := by
  unfold State.nextInput
  split
  · next inp rest h => exact .inl ⟨inp, rest, h, rfl⟩
  · next h => exact .inr ⟨h, rfl⟩

@[simp] theorem onNext_next (f : State → State) (s : State) : onNext f (.next s) = .next (f s) := rfl

/-- `onNext` answers a next state only from one. -/
theorem onNext_eq_next {f : State → State} {o : Host.Outcome State Fault Refusal} {t : State} :
    onNext f o = .next t ↔ ∃ s, o = .next s ∧ f s = t := by
  cases o <;> simp [onNext]

/-! ### Flushing the plane (R196) -/

theorem State.planeFlush_dirty {s : State} (h : s.dirty = true) :
    s.planeFlush = { s with
      dirty := false
      presents :=
        { width := planeWidth s.cfg.geometry, height := planeHeight s.cfg.geometry, cells := s.plane } ::
          s.presents } := by
  simp [State.planeFlush, h]

theorem State.planeFlush_clean {s : State} (h : s.dirty = false) : s.planeFlush = s := by
  simp [State.planeFlush, h]

/-! ### Skips (R10) -/

theorem State.skipIf_true (s : State) : s.skipIf true = s.setPc (s.pc + 2) := rfl
theorem State.skipIf_false (s : State) : s.skipIf false = s := rfl

end Sys2Proof.Machine
end

