-- ==== Sys2Proof/Laws/PerInstr.lean ====
section
/-! SUPPORT. Per instruction: its word lies in its row of spec/opcode_table.json. -/

namespace Sys2Proof.Laws.TableRow

/-- The encoded word belongs to the instruction's row: `word & mask = value`. -/
def Statement (i : Instr) : Prop := i.row.matches (encode i) = true

/-! ### The masks of the table, by shape -/

theorem mask_nnn (op : BitVec 4) (nnn : Addr) : (op ++ nnn) &&& 0xF000#16 = op ++ 0#12 := by
  show (op ++ nnn) &&& (0xF#4 ++ 0#12) = _
  rw [BitVec.and_append, BitVec.and_zero, show (0xF#4) = BitVec.allOnes 4 from rfl, BitVec.and_allOnes]

theorem mask_xnn (op x : BitVec 4) (nn : Byte) : (op ++ x ++ nn) &&& 0xF000#16 = op ++ 0#4 ++ 0#8 := by
  show (op ++ x ++ nn) &&& (0xF#4 ++ 0#4 ++ 0#8) = _
  rw [BitVec.and_append, BitVec.and_append, BitVec.and_zero, BitVec.and_zero,
    show (0xF#4) = BitVec.allOnes 4 from rfl, BitVec.and_allOnes]

theorem mask_xyn (op x y n : BitVec 4) : (op ++ x ++ y ++ n) &&& 0xF000#16 = op ++ 0#4 ++ 0#4 ++ 0#4 := by
  show (op ++ x ++ y ++ n) &&& (0xF#4 ++ 0#4 ++ 0#4 ++ 0#4) = op ++ 0#4 ++ 0#4 ++ 0#4
  rw [BitVec.and_append, BitVec.and_append, BitVec.and_append, BitVec.and_zero, BitVec.and_zero, BitVec.and_zero,
    show (0xF#4) = BitVec.allOnes 4 from rfl, BitVec.and_allOnes]

theorem mask_xy (op x y n : BitVec 4) : (op ++ x ++ y ++ n) &&& 0xF00F#16 = op ++ 0#4 ++ 0#4 ++ n := by
  show (op ++ x ++ y ++ n) &&& (0xF#4 ++ 0#4 ++ 0#4 ++ 0xF#4) = op ++ 0#4 ++ 0#4 ++ n
  rw [BitVec.and_append, BitVec.and_append, BitVec.and_append, BitVec.and_zero, BitVec.and_zero,
    show (0xF#4) = BitVec.allOnes 4 from rfl, BitVec.and_allOnes, BitVec.and_allOnes]

theorem mask_x (op x : BitVec 4) (nn : Byte) : (op ++ x ++ nn) &&& 0xF0FF#16 = op ++ 0#4 ++ nn := by
  show (op ++ x ++ nn) &&& (0xF#4 ++ 0#4 ++ 0xFF#8) = _
  rw [BitVec.and_append, BitVec.and_append, BitVec.and_zero, show (0xF#4) = BitVec.allOnes 4 from rfl,
    show (0xFF#8) = BitVec.allOnes 8 from rfl, BitVec.and_allOnes, BitVec.and_allOnes]

/-- A masked word with the row's value belongs to the row. -/
theorem of_mask {i : Instr} (h : encode i &&& i.row.mask = i.row.value) : Statement i := by
  simp only [Statement, OpRow.matches, h, beq_self_eq_true]

/-! ### One lemma a constructor -/

theorem cls : Statement .cls := of_mask rfl

theorem ret : Statement .ret := of_mask rfl

theorem jp (nnn : Addr) : Statement (.jp nnn) := of_mask (mask_nnn _ nnn)

theorem call (nnn : Addr) : Statement (.call nnn) := of_mask (mask_nnn _ nnn)

theorem seImm (x : Reg) (nn : Byte) : Statement (.seImm x nn) := of_mask (mask_xnn _ x nn)

theorem sneImm (x : Reg) (nn : Byte) : Statement (.sneImm x nn) := of_mask (mask_xnn _ x nn)

theorem seReg (x y : Reg) : Statement (.seReg x y) := of_mask (mask_xy _ x y _)

theorem ldImm (x : Reg) (nn : Byte) : Statement (.ldImm x nn) := of_mask (mask_xnn _ x nn)

theorem addImm (x : Reg) (nn : Byte) : Statement (.addImm x nn) := of_mask (mask_xnn _ x nn)

theorem ldReg (x y : Reg) : Statement (.ldReg x y) := of_mask (mask_xy _ x y _)

theorem orReg (x y : Reg) : Statement (.orReg x y) := of_mask (mask_xy _ x y _)

theorem andReg (x y : Reg) : Statement (.andReg x y) := of_mask (mask_xy _ x y _)

theorem xorReg (x y : Reg) : Statement (.xorReg x y) := of_mask (mask_xy _ x y _)

theorem addReg (x y : Reg) : Statement (.addReg x y) := of_mask (mask_xy _ x y _)

theorem subReg (x y : Reg) : Statement (.subReg x y) := of_mask (mask_xy _ x y _)

theorem shr (x y : Reg) : Statement (.shr x y) := of_mask (mask_xy _ x y _)

theorem subn (x y : Reg) : Statement (.subn x y) := of_mask (mask_xy _ x y _)

theorem shl (x y : Reg) : Statement (.shl x y) := of_mask (mask_xy _ x y _)

theorem sneReg (x y : Reg) : Statement (.sneReg x y) := of_mask (mask_xy _ x y _)

theorem ldI (nnn : Addr) : Statement (.ldI nnn) := of_mask (mask_nnn _ nnn)

theorem jpV0 (nnn : Addr) : Statement (.jpV0 nnn) := of_mask (mask_nnn _ nnn)

theorem rnd (x : Reg) (nn : Byte) : Statement (.rnd x nn) := of_mask (mask_xnn _ x nn)

theorem drw (x y : Reg) (n : Nibble) : Statement (.drw x y n) := of_mask (mask_xyn _ x y n)

theorem skp (x : Reg) : Statement (.skp x) := of_mask (mask_x _ x _)

theorem sknp (x : Reg) : Statement (.sknp x) := of_mask (mask_x _ x _)

theorem ldVxDT (x : Reg) : Statement (.ldVxDT x) := of_mask (mask_x _ x _)

theorem ldVxK (x : Reg) : Statement (.ldVxK x) := of_mask (mask_x _ x _)

theorem ldDTVx (x : Reg) : Statement (.ldDTVx x) := of_mask (mask_x _ x _)

theorem ldSTVx (x : Reg) : Statement (.ldSTVx x) := of_mask (mask_x _ x _)

theorem addI (x : Reg) : Statement (.addI x) := of_mask (mask_x _ x _)

theorem ldF (x : Reg) : Statement (.ldF x) := of_mask (mask_x _ x _)

theorem ldB (x : Reg) : Statement (.ldB x) := of_mask (mask_x _ x _)

theorem ldStore (x : Reg) : Statement (.ldStore x) := of_mask (mask_x _ x _)

theorem ldLoad (x : Reg) : Statement (.ldLoad x) := of_mask (mask_x _ x _)

end Sys2Proof.Laws.TableRow
end

