-- ==== Sys2Proof/Laws/Plane.lean ====
section
/-! SUPPORT. What drawing does, cell by cell (44_display.md R190 to R194). -/

namespace Sys2Proof.Machine

/-! ### Cells -/

/-- Two cells of the plane with one index are one cell. -/
theorem cellIndex_inj {g : Geometry} {x y x' y' : Nat} (hx : x < planeWidth g) (hx' : x' < planeWidth g)
    (h : cellIndex g x y = cellIndex g x' y') : x = x' ∧ y = y' := by
  cases g <;> simp only [cellIndex, planeWidth] at * <;> omega

/-- A cell's index lies below `W × H`. -/
theorem cellIndex_lt {g : Geometry} {x y : Nat} (h : InPlane g x y) :
    cellIndex g x y < planeWidth g * planeHeight g := by
  obtain ⟨hx, hy⟩ := h
  cases g <;> simp only [cellIndex, planeWidth, planeHeight] at * <;> omega

theorem cells_le (g : Geometry) : planeWidth g * planeHeight g ≤ 8192 := by cases g <;> decide

/-- Toggling one cell inverts it and leaves the others. -/
theorem cell_toggle {g : Geometry} {p : Plane} {x y x' y' : Nat} (h : InPlane g x y) (h' : InPlane g x' y') :
    cell g (toggle g p x y) x' y' = if x' = x ∧ y' = y then !cell g p x' y' else cell g p x' y' := by
  have hlt : cellIndex g x y < 8192 := Nat.lt_of_lt_of_le (cellIndex_lt h) (cells_le g)
  unfold cell toggle
  rw [BitVec.getLsbD_xor, BitVec.getLsbD_twoPow]
  split
  · next e => obtain ⟨rfl, rfl⟩ := e; simp [hlt]
  · next e =>
    have : cellIndex g x y ≠ cellIndex g x' y' := fun he =>
      e ⟨(cellIndex_inj h.1 h'.1 he).1.symm, (cellIndex_inj h.1 h'.1 he).2.symm⟩
    simp [this]

/-- Toggling a cell of the plane sets no bit outside the plane. -/
theorem planeWf_toggle {g : Geometry} {p : Plane} {x y : Nat} (h : InPlane g x y)
    (hp : planeWf g p = true) : planeWf g (toggle g p x y) = true := by
  simp only [planeWf, decide_eq_true_eq] at *
  have hlt := cellIndex_lt h
  have h8 : cellIndex g x y < 8192 := Nat.lt_of_lt_of_le hlt (cells_le g)
  rw [toggle, BitVec.toNat_xor, BitVec.toNat_twoPow_of_lt h8]
  exact Nat.xor_lt_two_pow hp (Nat.pow_lt_pow_right (by omega) hlt)

/-! ### The effect of a drawing -/

/-- From `d` to `d'` the cells in `D` were drawn: each was toggled once, none other. -/
structure Drew (g : Geometry) (D : Nat → Nat → Prop) (d d' : Drawing) : Prop where
  toggled : ∀ x y, InPlane g x y → D x y → cell g d'.plane x y = !cell g d.plane x y
  kept : ∀ x y, InPlane g x y → ¬D x y → cell g d'.plane x y = cell g d.plane x y
  hit : d'.hit = true ↔ d.hit = true ∨ ∃ x y, InPlane g x y ∧ D x y ∧ cell g d.plane x y = true
  changed : d'.changed = true ↔ d.changed = true ∨ ∃ x y, InPlane g x y ∧ D x y
  wf : planeWf g d.plane = true → planeWf g d'.plane = true

/-- Drawing nothing. -/
theorem Drew.refl {g : Geometry} {D : Nat → Nat → Prop} (d : Drawing) (h : ∀ x y, InPlane g x y → ¬D x y) :
    Drew g D d d where
  toggled x y hp hd := absurd hd (h x y hp)
  kept _ _ _ _ := rfl
  hit := ⟨.inl, fun | .inl h => h | .inr ⟨x, y, hp, hd, _⟩ => absurd hd (h x y hp)⟩
  changed := ⟨.inl, fun | .inl h => h | .inr ⟨x, y, hp, hd⟩ => absurd hd (h x y hp)⟩
  wf h := h

/-- Drawing two sets of cells that share none. -/
theorem Drew.trans {g : Geometry} {D E F : Nat → Nat → Prop} {d e f : Drawing} (h1 : Drew g D d e)
    (h2 : Drew g E e f) (disj : ∀ x y, D x y → ¬E x y) (hF : ∀ x y, InPlane g x y → (F x y ↔ D x y ∨ E x y)) :
    Drew g F d f where
  toggled x y hp hF' := by
    rcases (hF x y hp).mp hF' with hd | he
    · rw [h2.kept x y hp (disj x y hd), h1.toggled x y hp hd]
    · rw [h2.toggled x y hp he, h1.kept x y hp (fun hd => disj x y hd he)]
  kept x y hp hF' := by
    have := mt (hF x y hp).mpr hF'
    rw [h2.kept x y hp (fun he => this (.inr he)), h1.kept x y hp (fun hd => this (.inl hd))]
  hit := by
    rw [h2.hit, h1.hit, or_assoc]
    refine or_congr Iff.rfl ⟨?_, ?_⟩
    · rintro (⟨x, y, hp, hd, hc⟩ | ⟨x, y, hp, he, hc⟩)
      · exact ⟨x, y, hp, (hF x y hp).mpr (.inl hd), hc⟩
      · refine ⟨x, y, hp, (hF x y hp).mpr (.inr he), ?_⟩
        rwa [h1.kept x y hp (fun hd => disj x y hd he)] at hc
    · rintro ⟨x, y, hp, hf, hc⟩
      rcases (hF x y hp).mp hf with hd | he
      · exact .inl ⟨x, y, hp, hd, hc⟩
      · exact .inr ⟨x, y, hp, he, by rwa [h1.kept x y hp (fun hd => disj x y hd he)]⟩
  changed := by
    rw [h2.changed, h1.changed, or_assoc]
    refine or_congr Iff.rfl ⟨?_, ?_⟩
    · rintro (⟨x, y, hp, hd⟩ | ⟨x, y, hp, he⟩)
      · exact ⟨x, y, hp, (hF x y hp).mpr (.inl hd)⟩
      · exact ⟨x, y, hp, (hF x y hp).mpr (.inr he)⟩
    · rintro ⟨x, y, hp, hf⟩
      exact ((hF x y hp).mp hf).imp (fun hd => ⟨x, y, hp, hd⟩) (fun he => ⟨x, y, hp, he⟩)
  wf h := h2.wf (h1.wf h)

/-- One set sprite bit (R192). -/
theorem drew_drawBit {g : Geometry} {x y : Nat} (hy : y < planeHeight g) (d : Drawing) :
    Drew g (fun x' y' => x' = x ∧ y' = y) d (drawBit g x y d) := by
  unfold drawBit
  split
  · next hx =>
    have hin : InPlane g x y := ⟨hx, hy⟩
    refine ⟨?_, ?_, ?_, ?_, planeWf_toggle hin⟩
    · intro x' y' hp hd
      simp only [cell_toggle hin hp, if_pos hd]
    · intro x' y' hp hd
      simp only [cell_toggle hin hp, if_neg hd]
    · simp only [Bool.or_eq_true]
      refine or_congr Iff.rfl ⟨fun h => ⟨x, y, hin, ⟨rfl, rfl⟩, h⟩, ?_⟩
      rintro ⟨_, _, _, ⟨rfl, rfl⟩, h⟩; exact h
    · exact ⟨fun _ => .inr ⟨x, y, hin, rfl, rfl⟩, fun _ => rfl⟩
  · next hx => exact Drew.refl d fun x' y' hp hd => hx (hd.1 ▸ hp.1)

/-- One sprite row (R192). -/
theorem drew_drawRow {g : Geometry} (b : Byte) (x0 : Nat) {y : Nat} (hy : y < planeHeight g) (d : Drawing) :
    Drew g (fun x' y' => ∃ c, c < 8 ∧ x' = x0 + c ∧ y' = y ∧ b.getLsbD (7 - c) = true) d (drawRow g b x0 y d) := by
  unfold drawRow
  suffices h : ∀ n, Drew g (fun x' y' => ∃ c, c < n ∧ x' = x0 + c ∧ y' = y ∧ b.getLsbD (7 - c) = true) d
      ((List.range n).foldl (fun d c => if b.getLsbD (7 - c) then drawBit g (x0 + c) y d else d) d) from h 8
  intro n
  induction n with
  | zero => exact Drew.refl d (by rintro _ _ _ ⟨c, hc, _⟩; omega)
  | succ n ih =>
    rw [List.range_succ, List.foldl_append]
    simp only [List.foldl_cons, List.foldl_nil]
    split
    · next hb =>
      refine ih.trans (drew_drawBit hy _) ?_ ?_
      · rintro x' y' ⟨c, hc, rfl, _, _⟩ ⟨h, _⟩; omega
      · intro x' y' _
        constructor
        · rintro ⟨c, hc, hx, hy', hb'⟩
          rcases Nat.lt_succ_iff_lt_or_eq.mp hc with h | rfl
          · exact .inl ⟨c, h, hx, hy', hb'⟩
          · exact .inr ⟨hx, hy'⟩
        · rintro (⟨c, hc, h⟩ | ⟨hx, hy'⟩)
          · exact ⟨c, by omega, h⟩
          · exact ⟨n, by omega, hx, hy', hb⟩
    · next hb =>
      refine ih.trans (E := fun _ _ => False) (Drew.refl _ fun _ _ _ h => h) (fun _ _ _ h => h) ?_
      intro x' y' _
      constructor
      · rintro ⟨c, hc, hx, hy', hb'⟩
        rcases Nat.lt_succ_iff_lt_or_eq.mp hc with h | rfl
        · exact .inl ⟨c, h, hx, hy', hb'⟩
        · exact absurd hb' hb
      · rintro (⟨c, hc, h⟩ | h)
        · exact ⟨c, by omega, h⟩
        · exact h.elim

/-- All rows from row `y` down; those below the bottom edge draw no cell (R192). -/
theorem drew_drawRows (g : Geometry) (x0 : Nat) (bs : List Byte) (y : Nat) (d : Drawing) :
    Drew g (fun x' y' => ∃ r c, r < bs.length ∧ c < 8 ∧ x' = x0 + c ∧ y' = y + r ∧
      (bs.getD r 0).getLsbD (7 - c) = true) d (drawRows g x0 bs y d) := by
  induction bs generalizing y d with
  | nil => exact Drew.refl d (by rintro _ _ _ ⟨r, c, h, _⟩; simp at h)
  | cons b bs ih =>
    unfold drawRows
    split
    · next h => exact Drew.refl d (by rintro x' y' ⟨_, hy⟩ ⟨r, c, _, _, _, rfl, _⟩; omega)
    · next h =>
      refine (drew_drawRow b x0 (Nat.lt_of_not_le h) d).trans (ih (y + 1) _) ?_ ?_
      · rintro x' y' ⟨_, _, _, rfl, _⟩ ⟨r, _, _, _, _, h, _⟩; omega
      · intro x' y' _
        constructor
        · rintro ⟨r, c, hr, hc, hx, hy, hb⟩
          cases r with
          | zero => exact .inl ⟨c, hc, hx, hy, by simpa using hb⟩
          | succ r =>
            exact .inr ⟨r, c, by simpa using hr, hc, hx, by omega, by simpa using hb⟩
        · rintro (⟨c, hc, hx, hy, hb⟩ | ⟨r, c, hr, hc, hx, hy, hb⟩)
          · exact ⟨0, c, by simp, hc, hx, hy, by simpa using hb⟩
          · exact ⟨r + 1, c, by simpa using hr, hc, hx, by omega, by simpa using hb⟩

/-- PlaneDraw draws exactly the cells where the sprite has a set bit (R192). -/
theorem drew_drawSprite (g : Geometry) (p : Plane) (bs : List Byte) (xs ys : Byte) :
    Drew g (SpriteBit g bs xs ys) { plane := p, hit := false, changed := false } (drawSprite g p bs xs ys) :=
  drew_drawRows g (xs.toNat % planeWidth g) bs (ys.toNat % planeHeight g) _

end Sys2Proof.Machine
end

