-- ==== Sys2Proof/Laws/Step.lean ====
section
/-! SUPPORT. Everything a step can do, said once: the fires, the engine step and the frame step taken apart. -/

namespace Sys2Proof.Machine

/-- A step to a next state is a fire of one clock on a running block. -/
theorem step_cases {s t : State} (h : step s = .next t) :
    s.halted = false ∧
    ((s.input.clock = .instruction ∧ ∃ u, engineStep s.advanceInsnClock = .next u ∧ t = u.nextInput) ∨
     (s.input.clock = .frame ∧ t = (frameStep s.advanceFrameClock).nextInput)) := by
  unfold step at h
  split at h
  · cases h
  · next hh =>
    refine ⟨by simpa using hh, ?_⟩
    unfold fire at h
    split at h
    · next hc =>
      obtain ⟨u, hu, rfl⟩ := onNext_eq_next.mp h
      exact .inl ⟨hc, u, hu, rfl⟩
    · next hc => cases h; exact .inr ⟨hc, rfl⟩

/-- A running block whose instruction clock fires. -/
theorem step_instruction {s : State} (hh : s.halted = false) (hc : s.input.clock = .instruction) :
    step s = onNext State.nextInput (engineStep s.advanceInsnClock) := by
  simp [step, hh, fire, hc, instructionFire]

/-- A running block whose frame clock fires. -/
theorem step_frame {s : State} (hh : s.halted = false) (hc : s.input.clock = .frame) :
    step s = .next (frameStep s.advanceFrameClock).nextInput := by
  simp [step, hh, fire, hc, frameFire]

/-- A halted block. -/
theorem step_halted {s : State} (hh : s.halted = true) : step s = .fault (.halted s.fault) := by
  simp [step, hh]

/-- An engine step fetches and runs an instruction, passes over an unknown word, or fails to fetch. -/
theorem engineStep_cases (s : State) :
    (∃ w insn, s.pc.toNat + 2 ≤ 4096 ∧ s.fetch16 s.pc = some w ∧ decodeWord w = .instr insn ∧
      engineStep s = exec insn (s.setPc (s.pc + 2))) ∨
    (∃ w f, s.pc.toNat + 2 ≤ 4096 ∧ s.fetch16 s.pc = some w ∧ decodeWord w = .unknown f ∧
      engineStep s = .next (s.setPc (s.pc + 2))) ∨
    (4096 < s.pc.toNat + 2 ∧ s.fetch16 s.pc = none ∧
      engineStep s = .next (s.raise .fetchRange s.pc s.pc 2 none)) := by
  rcases Nat.lt_or_ge 4096 (s.pc.toNat + 2) with h | h
  · have hf := State.fetch16_of_overrun (s := s) h
    exact .inr (.inr ⟨h, hf, by simp [engineStep, hf]⟩)
  · have hf := State.fetch16_of_fits (s := s) h
    cases hd : decodeWord (s.mem.read s.pc.toNat ++ s.mem.read (s.pc.toNat + 1)) with
    | instr insn => exact .inl ⟨_, insn, h, hf, hd, by simp [engineStep, hf, executeWord, hd]⟩
    | unknown f => exact .inr (.inl ⟨_, f, h, hf, hd, by simp [engineStep, hf, executeWord, hd]⟩)

/-- An engine step on a decoded instruction. -/
theorem engineStep_instr {s : State} {w : Word} {insn : Instr} (hf : s.fetch16 s.pc = some w)
    (hd : decodeWord w = .instr insn) : engineStep s = exec insn (s.setPc (s.pc + 2)) := by
  simp [engineStep, hf, executeWord, hd]

/-- An engine step on an unknown word. -/
theorem engineStep_unknown {s : State} {w : Word} {f : UnknownFamily} (hf : s.fetch16 s.pc = some w)
    (hd : decodeWord w = .unknown f) : engineStep s = .next (s.setPc (s.pc + 2)) := by
  simp [engineStep, hf, executeWord, hd]

/-- A frame step: both timers down by one modulo 256, the plane presented if dirty, nothing else. -/
theorem frameStep_eq (s : State) :
    frameStep s = { s with
      dt := s.dt - 1
      st := s.st - 1
      dirty := false
      presents :=
        if s.dirty then
          { width := planeWidth s.cfg.geometry, height := planeHeight s.cfg.geometry, cells := s.plane } :: s.presents
        else s.presents } := by
  cases h : s.dirty with
  | true => simp [frameStep, State.planeFlush, h, State.setDT, State.setST]
  | false =>
    simp only [frameStep, State.planeFlush, State.setST_dirty, State.setDT_dirty, h]
    obtain ⟨⟩ := s
    simp_all [State.setDT, State.setST]

/-- A halted block fires no clock in a loop iteration. -/
theorem loopIteration_halted {s : State} (hh : s.halted = true) (t : Nat) : loopIteration t s = .next s := by
  simp [loopIteration, insnMatured, fireFrameIfMatured, frameMatured, hh]

end Sys2Proof.Machine
end

