-- ==== Sys2Proof/Machine/AsmText.lean ====
section
/-! DEFINITION. The assembler text of an instruction (30_encoding.md R103, decision D32). Notation only: no other definition uses it. -/

namespace Sys2Proof

/-- One hexadecimal digit, capital letters. -/
def hexDigit (d : BitVec 4) : Char :=
  if d.toNat < 10 then Char.ofNat (48 + d.toNat) else Char.ofNat (55 + d.toNat)

/-- A register name, `V0`..`VF`. -/
def asmReg (x : Reg) : List Char := ['V', hexDigit x]

/-- A nibble in hex with a `0x` prefix. -/
def asmNibble (n : Nibble) : List Char := ['0', 'x', hexDigit n]

/-- A byte in hex with a `0x` prefix. -/
def asmByte (b : Byte) : List Char :=
  ['0', 'x', hexDigit (b.extractLsb' 4 4), hexDigit (b.extractLsb' 0 4)]

/-- A 12-bit address in hex with a `0x` prefix. -/
def asmAddr (a : Addr) : List Char :=
  ['0', 'x', hexDigit (a.extractLsb' 8 4), hexDigit (a.extractLsb' 4 4), hexDigit (a.extractLsb' 0 4)]

/-- A mnemonic and its operands, "separated by commas, destination first". -/
def asmLine (mnemonic : String) : List (List Char) → List Char
  | [] => mnemonic.toList
  | o :: os => mnemonic.toList ++ [' '] ++ o ++ os.flatMap fun p => ',' :: ' ' :: p

/-- The text of an instruction, the table of R103. -/
def Instr.asm : Instr → List Char
  | .cls => asmLine "CLS" []
  | .ret => asmLine "RET" []
  | .jp nnn => asmLine "JP" [asmAddr nnn]
  | .call nnn => asmLine "CALL" [asmAddr nnn]
  | .seImm x nn => asmLine "SE" [asmReg x, asmByte nn]
  | .sneImm x nn => asmLine "SNE" [asmReg x, asmByte nn]
  | .seReg x y => asmLine "SE" [asmReg x, asmReg y]
  | .ldImm x nn => asmLine "LD" [asmReg x, asmByte nn]
  | .addImm x nn => asmLine "ADD" [asmReg x, asmByte nn]
  | .ldReg x y => asmLine "LD" [asmReg x, asmReg y]
  | .orReg x y => asmLine "OR" [asmReg x, asmReg y]
  | .andReg x y => asmLine "AND" [asmReg x, asmReg y]
  | .xorReg x y => asmLine "XOR" [asmReg x, asmReg y]
  | .addReg x y => asmLine "ADD" [asmReg x, asmReg y]
  | .subReg x y => asmLine "SUB" [asmReg x, asmReg y]
  | .shr x y => asmLine "SHR" [asmReg x, asmReg y]
  | .subn x y => asmLine "SUBN" [asmReg x, asmReg y]
  | .shl x y => asmLine "SHL" [asmReg x, asmReg y]
  | .sneReg x y => asmLine "SNE" [asmReg x, asmReg y]
  | .ldI nnn => asmLine "LD" [['I'], asmAddr nnn]
  | .jpV0 nnn => asmLine "JP" [asmReg 0, asmAddr nnn]
  | .rnd x nn => asmLine "RND" [asmReg x, asmByte nn]
  | .drw x y n => asmLine "DRW" [asmReg x, asmReg y, asmNibble n]
  | .skp x => asmLine "SKP" [asmReg x]
  | .sknp x => asmLine "SKNP" [asmReg x]
  | .ldVxDT x => asmLine "LD" [asmReg x, ['D', 'T']]
  | .ldVxK x => asmLine "LD" [asmReg x, ['K']]
  | .ldDTVx x => asmLine "LD" [['D', 'T'], asmReg x]
  | .ldSTVx x => asmLine "LD" [['S', 'T'], asmReg x]
  | .addI x => asmLine "ADD" [['I'], asmReg x]
  | .ldF x => asmLine "LD" [['F'], asmReg x]
  | .ldB x => asmLine "LD" [['B'], asmReg x]
  | .ldStore x => asmLine "LD" [['[', 'I', ']'], asmReg x]
  | .ldLoad x => asmLine "LD" [asmReg x, ['[', 'I', ']']]

/-- A raw word is written `DW 0xwwww`. -/
def asmUnknown (w : Word) : List Char :=
  asmLine "DW" [['0', 'x', hexDigit (w.extractLsb' 12 4), hexDigit (w.extractLsb' 8 4),
    hexDigit (w.extractLsb' 4 4), hexDigit (w.extractLsb' 0 4)]]

end Sys2Proof
end

