-- ==== Sys2Proof/Tests/Slice0.lean ====
section
/-! SUPPORT. Tests. Expected results come from spec/95_test_vectors.md (the vector's id stands at each test) or from the encodings of 30_encoding.md; then one witness theorem for each statement with hypotheses. -/

namespace Sys2Proof.Machine

-- one elaboration thread: every kernel evaluation would else hold a thread of its own
set_option Elab.async false

/-! ### Helpers -/

/-- The reset state with the instruction clock due, no key down and 0 on the random port. -/
def bench : State := { State.reset with input := { clock := .instruction, keyDown := 0, rand := 0, keyPick := 0 } }

/-- The bench with another quirk setting. -/
def benchCopy : State := { bench with cfg := { defaultConfig with shiftInPlace := false } }

/-- The bench with sprite bytes or data at 0x300 and `I = 0x300`. -/
def benchAt300 (bytes : List Byte) : State := { bench with mem := Memory.writeBlock [] 0x300 bytes, i := 0x300 }

/-- The bench with a frame due. -/
def benchFrame : State := bench.withClock .frame

/-- One step on the word placed at `pc` ends in a next state that passes the check. -/
def runsTo (w : Nat) (s : State) (check : State → Bool) : Bool :=
  match step (s.withFetchWord 16 w) with
  | .next t => check t
  | .fault _ => false
  | .refused _ => false

/-- One step of the state as it stands ends in a next state that passes the check. -/
def stepsTo (s : State) (check : State → Bool) : Bool :=
  match step s with
  | .next t => check t
  | .fault _ => false
  | .refused _ => false

/-- The block halted with this record. -/
def haltedWith (t : State) (cause : FaultCause) (pc addr : Word) (len : Nat) (opcode : Option Word) : Bool :=
  t.halted && t.fault == some { cause := cause, pc := pc, addr := addr, len := len, opcode := opcode }

/-! ### Well-formedness: each check refuses an ill-formed term

`Instr.wf` has no ill-formed term to refuse: its ranges are the types of the fields (see its docstring). -/

theorem test_wf_refuses_tick_zero : ({ defaultConfig with tickUs := 0 } : Config).tickOk = false := by decide
theorem test_wf_refuses_depth_zero : ({ defaultConfig with stackDepth := 0 } : Config).depthOk = false := by decide
theorem test_wf_refuses_bad_config :
    ({ defaultConfig with tickUs := 0 } : Config).wf = false ∧
    ({ defaultConfig with stackDepth := 0 } : Config).wf = false ∧ defaultConfig.wf = true := by decide
theorem test_wf_refuses_long_program :
    programFits (List.replicate 3585 0) = false ∧ programFits (List.replicate 3584 0) = true := by
  simp only [programFits, List.length_replicate]; decide
theorem test_wf_refuses_bad_memory :
    Memory.wf [(0x300, 0x00)] = false ∧ Memory.wf [(0x1000, 0x01)] = false ∧
    Memory.wf [(0x301, 0x01), (0x300, 0x01)] = false ∧ Memory.wf [(0x300, 0x01), (0x301, 0x02)] = true := by decide

/-! ### Decoding: words written out from R94 to R97 -/

/-- R94: family 0, and R93: families 1, 2 and B. -/
theorem test_words_flow :
    decodeWord 0b0000000011100000 = .instr .cls ∧
    decodeWord 0b0000000011101110 = .instr .ret ∧
    decodeWord 0b0001000100100011 = .instr (.jp 0x123) ∧
    decodeWord 0b0010001100000000 = .instr (.call 0x300) ∧
    decodeWord 0b1011111111111110 = .instr (.jpV0 0xFFE) := by decide

/-- R93: families 3, 4, 5, 9. -/
theorem test_words_skips :
    decodeWord 0b0011101000010100 = .instr (.seImm 0xA 0x14) ∧
    decodeWord 0b0100101000010100 = .instr (.sneImm 0xA 0x14) ∧
    decodeWord 0b0101000100100000 = .instr (.seReg 1 2) ∧
    decodeWord 0b1001000100100000 = .instr (.sneReg 1 2) := by decide

/-- R93 families 6 and 7, R95. -/
theorem test_words_alu :
    decodeWord 0b0110101000010100 = .instr (.ldImm 0xA 0x14) ∧
    decodeWord 0b0111000100000101 = .instr (.addImm 1 0x05) ∧
    decodeWord 0b1000000100100000 = .instr (.ldReg 1 2) ∧
    decodeWord 0b1000000100100001 = .instr (.orReg 1 2) ∧
    decodeWord 0b1000000100100010 = .instr (.andReg 1 2) ∧
    decodeWord 0b1000000100100011 = .instr (.xorReg 1 2) ∧
    decodeWord 0b1000000100100100 = .instr (.addReg 1 2) ∧
    decodeWord 0b1000000100100101 = .instr (.subReg 1 2) ∧
    decodeWord 0b1000000100100110 = .instr (.shr 1 2) ∧
    decodeWord 0b1000000100100111 = .instr (.subn 1 2) ∧
    decodeWord 0b1000000100101110 = .instr (.shl 1 2) := by decide

/-- R93: families A, C, D. -/
theorem test_words_index_display :
    decodeWord 0b1010000001010000 = .instr (.ldI 0x050) ∧
    decodeWord 0b1100001100001111 = .instr (.rnd 3 0x0F) ∧
    decodeWord 0b1101000000010101 = .instr (.drw 0 1 5) := by decide

/-- R96. -/
theorem test_words_keypad :
    decodeWord 0b1110000110011110 = .instr (.skp 1) ∧
    decodeWord 0b1110000110100001 = .instr (.sknp 1) := by decide

/-- R97. -/
theorem test_words_family_F :
    decodeWord 0b1111010100000111 = .instr (.ldVxDT 5) ∧
    decodeWord 0b1111001100001010 = .instr (.ldVxK 3) ∧
    decodeWord 0b1111010100010101 = .instr (.ldDTVx 5) ∧
    decodeWord 0b1111010100011000 = .instr (.ldSTVx 5) ∧
    decodeWord 0b1111001100011110 = .instr (.addI 3) ∧
    decodeWord 0b1111001000101001 = .instr (.ldF 2) ∧
    decodeWord 0b1111000000110011 = .instr (.ldB 0) ∧
    decodeWord 0b1111001001010101 = .instr (.ldStore 2) ∧
    decodeWord 0b1111001001100101 = .instr (.ldLoad 2) := by decide

/-- R98, R99 and the vectors U1 to U5, S8, S11. -/
theorem test_words_unknown :
    decodeWord 0x0000 = .unknown .family0 ∧ decodeWord 0x0123 = .unknown .family0 ∧
    decodeWord 0x5121 = .unknown .family5 ∧ decodeWord 0x8128 = .unknown .family8 ∧
    decodeWord 0x9121 = .unknown .family9 ∧ decodeWord 0xE100 = .unknown .familyE ∧
    decodeWord 0xF0FF = .unknown .familyF := by decide

/-- R66, R100: big-endian pairs; fewer than two bytes are no instruction. -/
theorem test_decode_bytes :
    decodeBytes [0x6A, 0x14, 0x12] = .decoded (.instr (.ldImm 0xA 0x14)) [0x12] ∧
    decodeBytes [0x6A] = .truncated ∧ decodeBytes [] = .truncated := by decide

/-- The words of the other direction (R103). -/
theorem test_encode_words :
    encode (.drw 0 1 5) = 0xD015 ∧ encode (.shl 1 2) = 0x812E ∧ encode (.ldStore 2) = 0xF255 ∧
    encode (.jp 0x200) = 0x1200 ∧ encode .ret = 0x00EE := by decide

/-- R103: the texts of programs P3 and P4. -/
theorem test_asm_text :
    (Instr.drw 0 0 5).asm = "DRW V0, V0, 0x5".toList ∧ (Instr.ldStore 0).asm = "LD [I], V0".toList ∧
    (Instr.ldImm 10 0x14).asm = "LD VA, 0x14".toList ∧ asmUnknown 0x0000 = "DW 0x0000".toList := by decide +kernel

/-! ### One step each: control transfer -/

/-- F1 -/
theorem test_cls : runsTo 0x00E0 { bench with plane := 1 } (fun t => t.plane == 0 && t.dirty && t.pc == 0x202) := by
  decide +kernel
/-- F2 -/
theorem test_ret : runsTo 0x00EE { bench with pc := 0x400, stack := [0x206, 0x30A] }
    (fun t => t.pc == 0x30A && t.stack == [0x206]) := by decide +kernel
/-- F3 -/
theorem test_ret_empty : runsTo 0x00EE { bench with pc := 0x400 }
    (fun t => t.pc == 0x402 && t.stack == [] && !t.halted) := by decide +kernel
/-- F4 -/
theorem test_jp_odd : runsTo 0x1123 bench (fun t => t.pc == 0x123) := by decide +kernel
/-- F7 -/
theorem test_call_overflow : runsTo 0x2300 { bench with pc := 0x204, stack := List.replicate 16 0x300 }
    (fun t => haltedWith t .stackOverflow 0x204 0x204 0 (some 0x2300) && t.pc == 0x206 &&
      t.stack == List.replicate 16 0x300) := by decide +kernel
/-- F8 -/
theorem test_call_last_word : runsTo 0x2200 { bench with pc := 0xFFE }
    (fun t => t.stack == [0x1000] && t.pc == 0x200) := by decide +kernel
/-- F10 -/
theorem test_jpV0_no_mask : runsTo 0xBFFF (bench.setV 0 0xFF) (fun t => t.pc == 0x10FE) := by decide +kernel

/-! ### Skips -/

/-- S1 -/
theorem test_seImm : runsTo 0x3A14 (bench.setV 10 0x14) (fun t => t.pc == 0x204) := by decide +kernel
/-- S2 -/
theorem test_seImm_not : runsTo 0x3A14 (bench.setV 10 0x15) (fun t => t.pc == 0x202) := by decide +kernel
/-- S3 -/
theorem test_sneImm_not : runsTo 0x4A14 (bench.setV 10 0x14) (fun t => t.pc == 0x202) := by decide +kernel
/-- S4 -/
theorem test_sneImm : runsTo 0x4A14 bench (fun t => t.pc == 0x204) := by decide +kernel
/-- S6 -/
theorem test_seReg_not : runsTo 0x5120 ((bench.setV 1 7).setV 2 8) (fun t => t.pc == 0x202) := by decide +kernel
/-- S7 -/
theorem test_seReg_same : runsTo 0x5110 (bench.setV 1 7) (fun t => t.pc == 0x204) := by decide +kernel
/-- S9 -/
theorem test_sneReg : runsTo 0x9120 ((bench.setV 1 7).setV 2 8) (fun t => t.pc == 0x204) := by decide +kernel
/-- S10 -/
theorem test_sneReg_same : runsTo 0x9110 (bench.setV 1 7) (fun t => t.pc == 0x202) := by decide +kernel

/-! ### Register assignment and arithmetic -/

/-- A1 -/
theorem test_ldImm : runsTo 0x6A14 bench (fun t => t.getV 10 == 0x14 && t.pc == 0x202) := by decide +kernel
/-- A2 -/
theorem test_addImm_wraps : runsTo 0x7105 ((bench.setV 1 0xFE).setV 15 7) (fun t => t.getV 1 == 3 && t.getV 15 == 7) := by
  decide +kernel
/-- A3 -/
theorem test_addImm_VF : runsTo 0x7F01 (bench.setV 15 0xFF) (fun t => t.getV 15 == 0) := by decide +kernel
/-- A4 -/
theorem test_ldReg : runsTo 0x8120 (bench.setV 2 0x33) (fun t => t.getV 1 == 0x33 && t.getV 2 == 0x33) := by
  decide +kernel
/-- A5 -/
theorem test_orReg : runsTo 0x8121 (((bench.setV 1 0x0F).setV 2 0xF0).setV 15 7)
    (fun t => t.getV 1 == 0xFF && t.getV 15 == 7) := by decide +kernel
/-- A6 -/
theorem test_andReg : runsTo 0x8122 ((bench.setV 1 0x3C).setV 2 0x0F) (fun t => t.getV 1 == 0x0C) := by decide +kernel
/-- A7 -/
theorem test_xorReg : runsTo 0x8123 ((bench.setV 1 0xFF).setV 2 0x0F) (fun t => t.getV 1 == 0xF0) := by decide +kernel
/-- A9 -/
theorem test_addReg_no_carry_flag : runsTo 0x8124 (((bench.setV 1 0xF0).setV 2 0x20).setV 15 7)
    (fun t => t.getV 1 == 0x10 && t.getV 15 == 7) := by decide +kernel
/-- A11 -/
theorem test_subReg_borrow : runsTo 0x8125 ((bench.setV 1 5).setV 2 7) (fun t => t.getV 1 == 0xFE && t.getV 15 == 0) := by
  decide +kernel
/-- A15 -/
theorem test_subReg_flag_last : runsTo 0x8F25 ((bench.setV 15 0x10).setV 2 1) (fun t => t.getV 15 == 1) := by
  decide +kernel
/-- A17 -/
theorem test_subn : runsTo 0x8127 ((bench.setV 1 5).setV 2 7) (fun t => t.getV 1 == 2 && t.getV 15 == 1) := by
  decide +kernel
/-- A18 -/
theorem test_subn_borrow : runsTo 0x8127 ((bench.setV 1 7).setV 2 5) (fun t => t.getV 1 == 0xFE && t.getV 15 == 0) := by
  decide +kernel
/-- A19 -/
theorem test_shr_in_place : runsTo 0x8126 ((bench.setV 1 5).setV 2 0x80) (fun t => t.getV 1 == 2 && t.getV 15 == 1) := by
  decide +kernel
/-- A20 -/
theorem test_shr_copy : runsTo 0x8126 ((benchCopy.setV 1 5).setV 2 0x80)
    (fun t => t.getV 1 == 0x40 && t.getV 15 == 0 && t.getV 2 == 0x80) := by decide +kernel
/-- A23 -/
theorem test_shl_in_place : runsTo 0x812E ((bench.setV 1 0x81).setV 2 1) (fun t => t.getV 1 == 2 && t.getV 15 == 1) := by
  decide +kernel
/-- A28 -/
theorem test_shl_copy_flag_last : runsTo 0x8F1E ((benchCopy.setV 15 0x81).setV 1 0x40) (fun t => t.getV 15 == 0) := by
  decide +kernel

/-! ### Index register and random byte -/

/-- I1 -/
theorem test_ldI : runsTo 0xA050 bench (fun t => t.i == 0x050) := by decide +kernel
/-- I5 -/
theorem test_addI_wraps : runsTo 0xF01E ({ bench with i := 0xFFFF }.setV 0 1)
    (fun t => t.i == 0x0000 && t.getV 15 == 1) := by decide +kernel
/-- I6 -/
theorem test_addI_VF : runsTo 0xFF1E ({ bench with i := 0x0200 }.setV 15 0x10)
    (fun t => t.i == 0x0210 && t.getV 15 == 0) := by decide +kernel
/-- I8 -/
theorem test_rnd_masks : runsTo 0xC30F (bench.withRand 0xA7) (fun t => t.getV 3 == 0x07) := by decide +kernel

/-! ### Display -/

/-- D3: the row is clipped at the right edge. -/
theorem test_drw_clips : runsTo 0xD011 ((benchAt300 [0xFF]).setV 0 0x3D)
    (fun t => t.plane == BitVec.twoPow 8192 61 ||| BitVec.twoPow 8192 62 ||| BitVec.twoPow 8192 63 &&
      t.getV 15 == 0 && t.dirty) := by decide +kernel
/-- D4 and D9 in one: the start wraps; a lit cell toggles off and VF is 1. -/
theorem test_drw_wraps_collides :
    runsTo 0xD011 (((benchAt300 [0x80]).setV 0 0x41).setV 1 0x21) (fun t => t.plane == BitVec.twoPow 8192 65) &&
    runsTo 0xD001 { benchAt300 [0xC0] with plane := 1 }
      (fun t => t.plane == BitVec.twoPow 8192 1 && t.getV 15 == 1 && t.dirty) := by decide +kernel

/-! ### Keypad -/

/-- K1 -/
theorem test_skp : runsTo 0xE19E ((bench.setV 1 5).withKeys 0x0020 0) (fun t => t.pc == 0x204) := by decide +kernel
/-- K3 -/
theorem test_skp_no_mask : runsTo 0xE19E ((bench.setV 1 0x15).withKeys 0xFFFF 0) (fun t => t.pc == 0x202) := by
  decide +kernel
/-- K4 -/
theorem test_sknp : runsTo 0xE1A1 ((bench.setV 1 5).withKeys 0xFFDF 0) (fun t => t.pc == 0x204) := by decide +kernel
/-- K5 -/
theorem test_sknp_no_mask : runsTo 0xE1A1 ((bench.setV 1 0x15).withKeys 0xFFFF 0) (fun t => t.pc == 0x204) := by
  decide +kernel
/-- K6 -/
theorem test_ldVxK_waits : runsTo 0xF30A bench (fun t => t.pc == 0x200 && t.getV 3 == 0) := by decide +kernel
/-- K7: keys 2 and 9 down, either may be stored. -/
theorem test_ldVxK_takes_a_down_key :
    runsTo 0xF30A (bench.withKeys 0x0204 0) (fun t => t.getV 3 == 2 && t.pc == 0x202) &&
    runsTo 0xF30A (bench.withKeys 0x0204 1) (fun t => t.getV 3 == 9 && t.pc == 0x202) := by decide +kernel

/-! ### Timers, BCD, font, register blocks -/

/-- B1 -/
theorem test_ldVxDT : runsTo 0xF507 { bench with dt := 0x2A } (fun t => t.getV 5 == 0x2A) := by decide +kernel
/-- B2 -/
theorem test_ldDTVx : runsTo 0xF515 (bench.setV 5 0x3C) (fun t => t.dt == 0x3C && t.st == 0) := by decide +kernel
/-- B3 -/
theorem test_ldSTVx : runsTo 0xF518 (bench.setV 5 0x10) (fun t => t.st == 0x10 && t.dt == 0) := by decide +kernel
/-- B9 -/
theorem test_ldB : runsTo 0xF033 ({ bench with i := 0xFFD }.setV 0 123)
    (fun t => t.mem.readBlock 0xFFD 3 == [1, 2, 3]) := by decide +kernel
/-- B10 -/
theorem test_ldB_faults : runsTo 0xF033 ({ bench with i := 0xFFE }.setV 0 123)
    (fun t => haltedWith t .writeRange 0x200 0xFFE 3 (some 0xF033) && t.mem.readBlock 0xFFE 2 == [0, 0]) := by
  decide +kernel
/-- B12 -/
theorem test_ldF_no_mask : runsTo 0xF229 (bench.setV 2 0xFF) (fun t => t.i == 0x54B) := by decide +kernel
/-- B13 -/
theorem test_ldStore : runsTo 0xF255 ((({ bench with i := 0x300 }.setV 0 1).setV 1 2).setV 2 3)
    (fun t => t.mem.readBlock 0x300 3 == [1, 2, 3] && t.i == 0x300) := by decide +kernel
/-- B15 -/
theorem test_ldStore_faults : runsTo 0xFF55 { bench with i := 0xFF1 }
    (fun t => haltedWith t .writeRange 0x200 0xFF1 16 (some 0xFF55)) := by decide +kernel
/-- B16 -/
theorem test_ldLoad : runsTo 0xF265 (benchAt300 [2, 5, 4, 9])
    (fun t => t.getV 0 == 2 && t.getV 1 == 5 && t.getV 2 == 4 && t.getV 3 == 0 && t.i == 0x300) := by decide +kernel
/-- B17 -/
theorem test_ldLoad_faults : runsTo 0xF065 { bench with i := 0x1000 }
    (fun t => haltedWith t .readRange 0x200 0x1000 1 (some 0xF065)) := by decide +kernel

/-! ### Unknown words, fetch, frame step, construction -/

/-- U1 and U6: the unknown word 0x0000 at 0xFFE. -/
theorem test_unknown_no_op : stepsTo { bench with pc := 0xFFE } (fun t => t.pc == 0x1000 && !t.halted) := by
  decide +kernel
/-- U7 -/
theorem test_fetch_fault : stepsTo { bench with pc := 0xFFF }
    (fun t => haltedWith t .fetchRange 0xFFF 0xFFF 2 none && t.pc == 0xFFF) := by decide +kernel
/-- B4, D13 -/
theorem test_frame_timers_wrap : stepsTo { benchFrame with dt := 0, st := 5 }
    (fun t => t.dt == 255 && t.st == 4 && t.presents == []) := by decide +kernel
/-- D12 -/
theorem test_frame_presents : stepsTo { benchFrame with dirty := true, plane := 1 }
    (fun t => t.presents == [{ width := 64, height := 32, cells := 1 }] && !t.dirty) := by decide +kernel
/-- L1-7's glyph 0 in memory, the program behind it and 0x00 elsewhere (R281, R282, D7). -/
theorem test_construct_memory :
    let s := State.construct defaultConfig [0xA0, 0x50] 0
    s.mem.readBlock 0x050 5 = [0xF0, 0x90, 0x90, 0x90, 0xF0] ∧ s.mem.readBlock 0x1FF 4 = [0x00, 0xA0, 0x50, 0x00] := by
  decide +kernel
/-- The host's query: the word is placed at the reset vector and is what the step decodes. -/
theorem test_table_word : decodeTableWord 16 0xD015 = some (.drw 0 1 5) ∧ decodeTableWord 16 0x0000 = none := by decide

/-! ### Witnesses: concrete values that meet the hypotheses of each statement, boundary values for each clause -/

theorem test_witness_ConstructionGivesTheStartState :
    ([] : List Byte).length ≤ 3584 ∧ (List.replicate 3584 (1 : Byte)).length ≤ 3584 ∧
    3583 < (List.replicate 3584 (1 : Byte)).length ∧
    ¬(0x050 ≤ 0x04F ∧ 0x04F ≤ 0x09F) ∧ ¬(0x200 ≤ 0x0A0 ∧ 0x0A0 < 0x200 + ([] : List Byte).length) ∧
    ¬(0x200 ≤ 0xFFF ∧ 0xFFF < 0x200 + (List.replicate 3583 (1 : Byte)).length) ∧
    InPlane .standard 63 31 ∧ InPlane .extended 127 63 := by
  simp only [List.length_replicate, InPlane, planeWidth, planeHeight]; decide

theorem test_witness_OversizedProgramNeverRuns :
    3584 < (List.replicate 3585 (1 : Byte)).length ∧ (List.replicate 3584 (1 : Byte)).length = 3584 ∧
    3583 < 3584 := by simp only [List.length_replicate]; decide

theorem test_witness_DecodeOfEncodeIsTheInstruction :
    (Instr.drw 15 15 15).wf = true ∧ (Instr.jp 0xFFF).wf = true ∧ Instr.cls.wf = true := by decide

theorem test_witness_EncodeOfDecodeIsTheWord :
    decodeWord 0xDFFF = .instr (.drw 15 15 15) ∧ decodeWord 0x1000 = .instr (.jp 0) := by decide

theorem test_witness_UnknownWordsAreThoseOfTheTable :
    decodeWord 0x00DF = .unknown .family0 ∧ decodeWord 0x500F = .unknown .family5 ∧
    decodeWord 0x8008 = .unknown .family8 ∧ decodeWord 0x800D = .unknown .family8 ∧
    decodeWord 0x800F = .unknown .family8 ∧ decodeWord 0x9001 = .unknown .family9 ∧
    decodeWord 0xE09D = .unknown .familyE ∧ decodeWord 0xF066 = .unknown .familyF := by decide

theorem test_witness_DecoderAgreesWithTheOpcodeTable :
    decodeWord 0xF565 = .instr (.ldLoad 5) ∧ (Instr.ldLoad 0).row.matches 0xF565 = true := by decide

theorem test_witness_StepRunsTheDecodedInstruction :
    let s := { bench with pc := 0xFFE, mem := [(0xFFE, 0x6A), (0xFFF, 0x14)] }
    s.halted = false ∧ s.input.clock = .instruction ∧ s.pc.toNat + 2 ≤ 4096 ∧ (Instr.ldImm 10 0x14).wf = true ∧
    decodeWord (s.mem.read s.pc.toNat ++ s.mem.read (s.pc.toNat + 1)) = .instr (.ldImm 10 0x14) := by decide +kernel

theorem test_witness_UnknownWordIsANoOp :
    let s := { bench with pc := 0xFFE }
    s.halted = false ∧ s.input.clock = .instruction ∧ s.pc.toNat + 2 ≤ 4096 ∧
    decodeWord (s.mem.read s.pc.toNat ++ s.mem.read (s.pc.toNat + 1)) = .unknown .family0 := by decide +kernel

theorem test_witness_FetchPastMemoryHaltsTheBlock :
    let s := { bench with pc := 0xFFF }
    s.halted = false ∧ s.input.clock = .instruction ∧ 0xFFF ≤ s.pc.toNat := by decide +kernel

theorem test_witness_PlacedWordIsTheNextInstruction :
    decodeTableWord 16 0x2300 = some (.call 0x300) ∧ ({ bench with pc := 0xFFE } : State).pc.toNat + 2 ≤ 4096 ∧
    ¬({ bench with pc := 0xFFF } : State).pc.toNat + 2 ≤ 4096 := by decide +kernel

theorem test_witness_FrameStepDecrementsBothTimersAndFlushes :
    benchFrame.halted = false ∧ benchFrame.input.clock = .frame ∧ benchFrame.dirty = false ∧
    ({ benchFrame with dirty := true } : State).dirty = true ∧
    ({ benchFrame with dirty := true } : State).input.clock = .frame := by decide +kernel

/-- A bench whose timestamps are 0. -/
def benchTimed : State := { bench with tInsn := 0, tFrame := 0 }

theorem test_witness_LoopIterationIsASequenceOfAdmittedSteps :
    benchTimed.halted = false ∧ benchTimed.tInsn + benchTimed.cfg.tickUs ≤ 1428 ∧
    ¬benchTimed.tInsn + benchTimed.cfg.tickUs ≤ 1427 ∧ benchTimed.tFrame + 16666 ≤ 16666 := by decide +kernel

theorem test_witness_TimestampsAdvanceByOnePeriod :
    (∃ u, loopIteration 1428 benchTimed = .next u ∧ u.tInsn = 1428 ∧ u.tFrame = 0) ∧
    (∃ u, loopIteration 16666 benchTimed = .next u ∧ u.halted = false ∧ u.tFrame = 16666) ∧
    (∃ u, loopIteration 1427 benchTimed = .next u ∧ u.tInsn = 0) ∧
    (∃ u, loopIteration 16666 { benchTimed with pc := 0xFFF } = .next u ∧ u.halted = true) :=
  ⟨⟨_, rfl, rfl, rfl⟩, ⟨_, rfl, rfl, rfl⟩, ⟨_, rfl, rfl⟩, ⟨_, rfl, rfl⟩⟩

theorem test_witness_HaltedBlockFiresNoClock :
    (State.construct defaultConfig (List.replicate 3585 0) 0).halted = true := by decide +kernel

theorem test_witness_ClsClearsEveryCellAndMarksDirty : InPlane bench.cfg.geometry 63 31 := by
  unfold InPlane; decide +kernel

theorem test_witness_RetPopsOrDoesNothing :
    bench.stack = [] ∧ ({ bench with stack := [0x206, 0x30A] } : State).stack = [0x206] ++ [0x30A] := by decide +kernel

theorem test_witness_JpSetsPc :
    let s := bench.withFetchWord 16 0x1200
    s.halted = false ∧ s.input.clock = .instruction ∧ s.pc = zextAddr 0x200 ∧
    s.fetch16 s.pc = some (0x1#4 ++ (0x200 : Addr)) := by decide +kernel

theorem test_witness_CallPushesTheReturnAddressOrOverflows :
    ({ bench with stack := List.replicate 15 0x300 } : State).depth < bench.cfg.stackDepth ∧
    ({ bench with stack := List.replicate 16 0x300 } : State).depth = bench.cfg.stackDepth := by decide +kernel

theorem test_witness_ReturnUndoesCall :
    ∃ t v, bench.depth < bench.cfg.stackDepth ∧ exec (.call 0x300) bench = .next t ∧ exec .ret t = .next v ∧
      t.stack = t.stack := ⟨_, _, by decide +kernel, rfl, rfl, rfl⟩

theorem test_witness_ImmediateSkipsCompareWithTheByte :
    (bench.setV 3 0xFF).getV 3 = 0xFF ∧ bench.getV 3 ≠ 0xFF := by decide +kernel

theorem test_witness_RegisterSkipsCompareTwoRegisters :
    bench.getV 1 = bench.getV 2 ∧ (bench.setV 1 7).getV 1 ≠ (bench.setV 1 7).getV 2 ∧
    (1 : Nibble) ≠ 0 ∧ (15 : Nibble) ≠ 0 := by decide +kernel

theorem test_witness_SubtractsSetVFWhenNoBorrow :
    (bench.getV 2).toNat ≤ (bench.getV 1).toNat ∧
    ¬((bench.setV 2 1).getV 2).toNat ≤ ((bench.setV 2 1).getV 1).toNat ∧ (1 : Reg) ≠ 15 := by decide +kernel

theorem test_witness_ShiftsSetVFToTheBitShiftedOut :
    (bench.cfg.shiftInPlace = true ∧ 127 = ((bench.setV 1 127).getV 1).toNat ∧ 127 % 2 = 1 ∧ ¬128 ≤ 127) ∧
    (benchCopy.cfg.shiftInPlace = false ∧ 128 = ((benchCopy.setV 2 128).getV 2).toNat ∧ ¬128 % 2 = 1 ∧ 128 ≤ 128) := by
  decide +kernel

theorem test_witness_AddISetsVFFromTheExactSum :
    0xFFF < ({ bench with i := 0x1000 } : State).i.toNat + (bench.getV 0).toNat ∧
    ({ bench with i := 0xFFF } : State).i.toNat + (bench.getV 0).toNat ≤ 0xFFF := by decide +kernel

theorem test_witness_DrwXorsTheSpriteAndReportsCollision :
    ({ bench with i := 0xFFE } : State).i.toNat + (2 : Nibble).toNat ≤ 4096 ∧
    4096 < ({ bench with i := 0xFFE } : State).i.toNat + (3 : Nibble).toNat ∧
    (InPlane .standard 63 0 ∧ SpriteBit .standard [0x80] 63 0 63 0 ∧ cell .standard (BitVec.twoPow 8192 63) 63 0 = true ∧
      cell .standard 0 63 0 = false) ∧
    ∀ cx cy : Nat, ¬SpriteBit .standard [] 0 0 cx cy := by
  refine ⟨by decide +kernel, by decide +kernel, ⟨by unfold InPlane; decide +kernel,
    ⟨0, 0, by decide +kernel, by decide +kernel, by decide +kernel, by decide +kernel, by decide +kernel⟩,
    by decide +kernel, by decide +kernel⟩, ?_⟩
  rintro cx cy ⟨r, _, h, _⟩
  simp at h

theorem test_witness_DrawingTwiceRestoresThePlane : (0 : Plane) = 0 ∧ (BitVec.twoPow 8192 0 : Plane) ≠ 0 := by
  decide +kernel

theorem test_witness_GeometryFixesTheCells :
    (InPlane .standard 63 31 ∧ InPlane .extended 127 63 ∧
      cellIndex .standard 63 31 = cellIndex .standard 63 31) ∧ ∃ t, exec .cls bench = .next t :=
  ⟨⟨by unfold InPlane; decide, by unfold InPlane; decide, rfl⟩, ⟨_, rfl⟩⟩

theorem test_witness_KeySkipsTestTheKeyInVx :
    (((bench.setV 1 0xF).getV 1).toNat ≤ 0xF ∧
      ((bench.setV 1 0xF).withKeys 0x8000 0).input.keyDown.getLsbD 0xF = true) ∧
    ¬((bench.setV 1 0x10).getV 1).toNat ≤ 0xF ∧ bench.input.keyDown.getLsbD 0 = false := by decide +kernel

theorem test_witness_KeyWaitRetriesOrStoresADownKey :
    bench.input.keyDown = 0 ∧ (bench.withKeys 0x8001 0).input.keyDown ≠ 0 ∧
    (0 < 16 ∧ (bench.withKeys 0x8001 0).input.keyDown.getLsbD 0 = true) ∧
    (15 < 16 ∧ (bench.withKeys 0x8001 0).input.keyDown.getLsbD 15 = true) := by decide +kernel

theorem test_witness_KeyWaitStepLeavesTheStateUnchanged :
    let s := { bench with pc := 0xFFE, mem := [(0xFFE, 0xF3), (0xFFF, 0x0A)] }
    s.halted = false ∧ s.input.clock = .instruction ∧ s.pc.toNat + 2 ≤ 4096 ∧
    s.mem.read s.pc.toNat ++ s.mem.read (s.pc.toNat + 1) = 0xF#4 ++ (3 : Reg) ++ 0x0A#8 ∧ s.input.keyDown = 0 := by
  decide +kernel

theorem test_witness_BcdStoresThreeDigitsOrFaults :
    ({ bench with i := 0xFFD } : State).i.toNat + 3 ≤ 4096 ∧ 4096 < ({ bench with i := 0xFFE } : State).i.toNat + 3 := by
  decide +kernel

theorem test_witness_RegisterStoreWritesV0ToVxOrFaults :
    ({ bench with i := 0xFF0 } : State).i.toNat + (15 : Reg).toNat + 1 ≤ 4096 ∧
    4096 < ({ bench with i := 0xFF1 } : State).i.toNat + (15 : Reg).toNat + 1 ∧ (15 : Reg).toNat ≤ (15 : Reg).toNat := by
  decide +kernel

theorem test_witness_RegisterLoadReadsV0ToVxOrFaults :
    ({ bench with i := 0xFFF } : State).i.toNat + (0 : Reg).toNat + 1 ≤ 4096 ∧
    4096 < ({ bench with i := 0x1000 } : State).i.toNat + (0 : Reg).toNat + 1 ∧
    (0 : Reg).toNat ≤ (0 : Reg).toNat ∧ (0 : Reg).toNat < (1 : Reg).toNat := by decide +kernel

theorem test_witness_LoadGivesBackWhatStoreWrote :
    ∃ t v, ({ bench with i := 0xFF0 } : State).i.toNat + (15 : Reg).toNat + 1 ≤ 4096 ∧
      exec (.ldStore 15) { bench with i := 0xFF0 } = .next t ∧ t.i = 0xFF0 ∧ exec (.ldLoad 15) t = .next v :=
  ⟨_, _, by decide +kernel, rfl, rfl, rfl⟩

theorem test_witness_StoredBytesAreFetchedAtOnce :
    (∃ t, bench.memWrite 0xFFE [0x12, 0x34] = some t) ∧ (0xFFE : Word).toNat + 2 ≤ 4096 ∧
    (0xFFE : Word).toNat ≤ 0xFFE ∧ 0xFFF < (0xFFE : Word).toNat + ([0x12, 0x34] : List Byte).length :=
  ⟨⟨_, rfl⟩, by decide, by decide, by decide⟩

/-- The bench meets the invariant. -/
theorem bench_inv : bench.Inv where
  mem_wf := by decide +kernel
  plane_wf := by decide +kernel
  cfg_wf := by decide +kernel
  depth_le := by decide +kernel
  entries := by intro a h; cases h
  pc_le := by decide +kernel
  halted_iff := by decide +kernel

theorem test_witness_EveryStepKeepsTheInvariant :
    bench.Inv ∧ (∃ t, step bench = .next t) ∧ ∃ t, step benchFrame = .next t := ⟨bench_inv, ⟨_, rfl⟩, ⟨_, rfl⟩⟩

theorem test_witness_EveryConstructionMeetsTheInvariant :
    defaultConfig.wf = true ∧ ({ defaultConfig with tickUs := 1, stackDepth := 1 } : Config).wf = true := by decide

theorem test_witness_RuntimeFaultsArePrecise :
    (∃ t r, step { bench with pc := 0xFFF } = .next t ∧ t.halted = true ∧ t.fault = some r ∧ r.cause = .fetchRange) ∧
    ∃ t r, step ({ bench with i := 0xFFE }.withFetchWord 16 0xF033) = .next t ∧ t.halted = true ∧
      t.fault = some r ∧ r.cause ≠ .fetchRange :=
  ⟨⟨_, _, rfl, rfl, rfl, rfl⟩, ⟨_, _, rfl, rfl, rfl, by decide +kernel⟩⟩

theorem test_witness_InstructionFaultsExactlyWhenTheTableSays :
    bench.halted = false ∧ FaultCondition (.ldB 0) { bench with i := 0xFFE } ∧
    ¬FaultCondition (.ldB 0) { bench with i := 0xFFD } ∧ (∃ t, exec (.ldB 0) { bench with i := 0xFFE } = .next t) ∧
    ∃ t, exec (.ldB 0) { bench with i := 0xFFD } = .next t := by
  refine ⟨by decide +kernel, ?_, ?_, ⟨_, rfl⟩, ⟨_, rfl⟩⟩ <;> unfold FaultCondition <;> decide +kernel

theorem test_witness_RunningBlockAlwaysSteps :
    bench.halted = false ∧ (bench.raise .fetchRange 0xFFF 0xFFF 2 none).halted = true ∧
    ∃ t, step { bench with pc := 0xFFF } = .next t ∧ t.halted = true :=
  ⟨by decide +kernel, by decide +kernel, _, rfl, rfl⟩

theorem test_witness_InstructionsWriteOnlyTheirRegisters : ∃ t, exec (.subReg 1 2) bench = .next t := ⟨_, rfl⟩

theorem test_witness_InstructionsWriteOnlyTheirParts : ∃ t, exec (.drw 1 2 3) bench = .next t := ⟨_, rfl⟩

theorem test_witness_ParametersAreImmutable : (∃ t, step bench = .next t) ∧ ∃ t, step benchFrame = .next t :=
  ⟨⟨_, rfl⟩, ⟨_, rfl⟩⟩

theorem test_witness_OnlyRndReadsTheRandomByte : ∀ (x : Reg) (nn : Byte), Instr.drw 1 2 3 ≠ .rnd x nn := by
  intro x nn h; cases h

theorem test_witness_OnlyKeypadInstructionsReadTheKeys :
    ∀ x : Reg, Instr.rnd 1 2 ≠ .skp x ∧ Instr.rnd 1 2 ≠ .sknp x ∧ Instr.rnd 1 2 ≠ .ldVxK x := by
  intro x; exact ⟨nofun, nofun, nofun⟩

theorem test_witness_SelfJumpIsAFixedPoint :
    let s := bench.withFetchWord 16 0x1200
    s.halted = false ∧ AtSelfJump s ∧ s.input.clock = .instruction ∧ AtSelfJump (s.withClock .frame) ∧
      (s.withClock .frame).input.clock = .frame :=
  ⟨rfl, ⟨0x200, by decide +kernel, by decide +kernel⟩, rfl, ⟨0x200, by decide +kernel, by decide +kernel⟩, rfl⟩

end Sys2Proof.Machine
end

section
/-! Every instruction completes, and the fault status (`halted` and the record) moves only by a raised fault (00_scope.md R11; 60_exceptions.md R240, R241). -/

namespace Sys2Proof.Machine

/-! ### Shared operations that keep the fault status -/

theorem State.skipIf_status (s : State) (c : Bool) : Part.status.same s (s.skipIf c) := by
  cases c
  · rw [State.skipIf_false]; exact ⟨rfl, rfl⟩
  · rw [State.skipIf_true]; exact ⟨rfl, rfl⟩

theorem State.popToPc_status (s : State) : Part.status.same s s.popToPc := by
  rcases s.popToPc_cases with ⟨-, h⟩ | ⟨below, top, -, h⟩ <;> rw [h] <;> exact ⟨rfl, rfl⟩

theorem State.loadRegs_status (s : State) (bs : List Byte) (k : Nat) : Part.status.same s (s.loadRegs bs k) := by
  obtain ⟨w, h⟩ := s.loadRegs_frame bs k
  rw [h]; exact ⟨rfl, rfl⟩

theorem frameStep_status (s : State) : Part.status.same s (frameStep s) := by
  rw [frameStep_eq]; exact ⟨rfl, rfl⟩

/-! ### The branches of the instructions that have two -/

theorem exec_call_of_room {s : State} {nnn : Addr} (h : s.depth < s.cfg.stackDepth) :
    exec (.call nnn) s = .next ((s.push s.pc).setPc (zextAddr nnn)) := by
  simp only [exec, execCall, if_pos h]

theorem exec_call_of_full {s : State} {nnn : Addr} (h : s.cfg.stackDepth ≤ s.depth) :
    exec (.call nnn) s = .next (s.raiseIn (.call nnn) .stackOverflow s.insnAddr 0) := by
  simp only [exec, execCall, if_neg (Nat.not_lt.mpr h)]

theorem exec_drw_of_fits {s : State} {x y : Reg} {n : Nibble} (h : s.i.toNat + n.toNat ≤ 4096) :
    exec (.drw x y n) s = .next (s.planeDraw (s.mem.readBlock s.i.toNat n.toNat) (s.getV x) (s.getV y)) := by
  simp only [exec, execDrw, State.memRead_of_fits h]

theorem exec_drw_of_overrun {s : State} {x y : Reg} {n : Nibble} (h : 4096 < s.i.toNat + n.toNat) :
    exec (.drw x y n) s = .next (s.raiseIn (.drw x y n) .readRange s.i n.toNat) := by
  simp only [exec, execDrw, State.memRead_of_overrun h]

theorem exec_ldLoad_of_fits {s : State} {x : Reg} (h : s.i.toNat + blockLength x ≤ 4096) :
    exec (.ldLoad x) s = .next (s.loadRegs (s.mem.readBlock s.i.toNat (blockLength x)) 0) := by
  simp only [exec, execLdLoad, State.memRead_of_fits h]

theorem exec_ldLoad_of_overrun {s : State} {x : Reg} (h : 4096 < s.i.toNat + blockLength x) :
    exec (.ldLoad x) s = .next (s.raiseIn (.ldLoad x) .readRange s.i (blockLength x)) := by
  simp only [exec, execLdLoad, State.memRead_of_overrun h]

theorem exec_ldVxK_of_none {s : State} {x : Reg} (h : s.anyKey = none) :
    exec (.ldVxK x) s = .next (s.setPc s.insnAddr) := by
  simp only [exec, execLdVxK, h]

theorem exec_ldVxK_of_some {s : State} {x : Reg} {k : Byte} (h : s.anyKey = some k) :
    exec (.ldVxK x) s = .next (s.setV x k) := by
  simp only [exec, execLdVxK, h]

/-! ### What an instruction can do to the fault status -/

/-- The instruction completes with the fault status kept, or raises its fault in `s` and does nothing else; which of the two, the table of R240 decides. -/
def CompletesOrRaises (insn : Instr) (s : State) : Prop :=
  (¬FaultCondition insn s ∧ Completes insn s (Part.status.same s)) ∨
  (FaultCondition insn s ∧ ∃ (cause : FaultCause) (addr : Word) (len : Nat),
    cause ≠ .loadOversize ∧ cause ≠ .fetchRange ∧ exec insn s = .next (s.raiseIn insn cause addr len))

theorem CompletesOrRaises.of_status {insn : Instr} {s t : State} (hc : ¬FaultCondition insn s)
    (he : exec insn s = .next t) (ht : Part.status.same s t) : CompletesOrRaises insn s :=
  .inl ⟨hc, t, he, ht⟩

theorem CompletesOrRaises.of_raise {insn : Instr} {s : State} {cause : FaultCause} {addr : Word} {len : Nat}
    (hc : FaultCondition insn s) (he : exec insn s = .next (s.raiseIn insn cause addr len))
    (hl : cause ≠ .loadOversize := by decide) (hf : cause ≠ .fetchRange := by decide) : CompletesOrRaises insn s :=
  .inr ⟨hc, cause, addr, len, hl, hf, he⟩

theorem call_completesOrRaises (nnn : Addr) (s : State) : CompletesOrRaises (.call nnn) s := by
  rcases Nat.lt_or_ge s.depth s.cfg.stackDepth with h | h
  · exact .of_status (Nat.not_le.mpr h) (exec_call_of_room h) ⟨rfl, rfl⟩
  · exact .of_raise h (exec_call_of_full h)

theorem drw_completesOrRaises (x y : Reg) (n : Nibble) (s : State) : CompletesOrRaises (.drw x y n) s := by
  rcases Nat.lt_or_ge 4096 (s.i.toNat + n.toNat) with h | h
  · exact .of_raise h (exec_drw_of_overrun h)
  · exact .of_status (Nat.not_lt.mpr h) (exec_drw_of_fits h) ⟨rfl, rfl⟩

theorem ldLoad_completesOrRaises (x : Reg) (s : State) : CompletesOrRaises (.ldLoad x) s := by
  rcases Nat.lt_or_ge 4096 (s.i.toNat + blockLength x) with h | h
  · exact .of_raise h (exec_ldLoad_of_overrun h)
  · exact .of_status (Nat.not_lt.mpr h) (exec_ldLoad_of_fits h) (s.loadRegs_status _ _)

/-- The two forms that store a block, LD B and LD [I], fault exactly when the block overruns memory. -/
theorem completesOrRaises_of_storeBlock {insn : Instr} {s : State} {bs : List Byte}
    (he : exec insn s = .next (s.storeBlock insn bs))
    (hc : FaultCondition insn s ↔ 4096 < s.i.toNat + bs.length) : CompletesOrRaises insn s := by
  rcases s.storeBlock_cases insn bs with ⟨h, hs⟩ | ⟨h, hs⟩ <;> rw [hs] at he
  · exact .of_status (fun f => Nat.not_lt.mpr h (hc.mp f)) he ⟨rfl, rfl⟩
  · exact .of_raise (hc.mpr h) he

theorem registerBlock_length (s : State) (x : Reg) : (registerBlock s x).length = x.toNat + 1 := by
  simp [registerBlock, blockLength]

theorem ldVxK_completesOrRaises (x : Reg) (s : State) : CompletesOrRaises (.ldVxK x) s := by
  cases h : s.anyKey with
  | none => exact .of_status id (exec_ldVxK_of_none h) ⟨rfl, rfl⟩
  | some k => exact .of_status id (exec_ldVxK_of_some h) ⟨rfl, rfl⟩

/-- R11, R240: no instruction is refused, and each keeps the fault status unless its own condition holds. -/
theorem exec_completesOrRaises (insn : Instr) (s : State) : CompletesOrRaises insn s := by
  cases insn with
  | call nnn => exact call_completesOrRaises nnn s
  | drw x y n => exact drw_completesOrRaises x y n s
  | ldLoad x => exact ldLoad_completesOrRaises x s
  | ldB x => exact completesOrRaises_of_storeBlock rfl Iff.rfl
  | ldStore x => exact completesOrRaises_of_storeBlock rfl (by rw [registerBlock_length]; rfl)
  | ldVxK x => exact ldVxK_completesOrRaises x s
  | ret => exact .of_status id rfl s.popToPc_status
  | seImm | sneImm | seReg | sneReg | skp | sknp => exact .of_status id rfl (s.skipIf_status _)
  | _ => exact .of_status id rfl ⟨rfl, rfl⟩

/-! ### Engine step and step -/

/-- From `s` to `t` the fault status is kept, or `t` is halted and holds a record. -/
def RunsOnOrRecordsFault (s t : State) : Prop := Part.status.same s t ∨ (t.halted = true ∧ t.fault ≠ none)

theorem exec_next (insn : Instr) (s : State) : Completes insn s (RunsOnOrRecordsFault s) := by
  rcases exec_completesOrRaises insn s with ⟨-, t, he, hs⟩ | ⟨-, cause, addr, len, -, -, he⟩
  · exact ⟨t, he, .inl hs⟩
  · exact ⟨_, he, .inr ⟨rfl, nofun⟩⟩

theorem engineStep_next (s : State) : ∃ t, engineStep s = .next t ∧ RunsOnOrRecordsFault s t := by
  rcases engineStep_cases s with ⟨w, insn, -, -, -, he⟩ | ⟨w, f, -, -, -, he⟩ | ⟨-, -, he⟩ <;> rw [he]
  · exact exec_next insn (s.setPc (s.pc + 2))
  · exact ⟨_, rfl, .inl ⟨rfl, rfl⟩⟩
  · exact ⟨_, rfl, .inr ⟨rfl, nofun⟩⟩

/-- A fire of either clock answers a next state. -/
theorem step_next {s : State} (hh : s.halted = false) : ∃ t, step s = .next t ∧ RunsOnOrRecordsFault s t := by
  cases hc : s.input.clock with
  | instruction =>
    obtain ⟨u, hu, hs⟩ := engineStep_next s.advanceInsnClock
    refine ⟨u.nextInput, by rw [step_instruction hh hc, hu, onNext_next], ?_⟩
    simpa [RunsOnOrRecordsFault, Part.same] using hs
  | frame =>
    refine ⟨_, step_frame hh hc, .inl ?_⟩
    simpa [Part.same] using frameStep_status s.advanceFrameClock

/-- Settles O50: each instruction answers a next state by its case in `exec_completesOrRaises`, each fire by `step_next`, and a halted block answers the fault `halted`. -/
theorem runningBlockAlwaysSteps : Obligations.RunningBlockAlwaysSteps := by
  unfold Obligations.RunningBlockAlwaysSteps
  refine ⟨fun insn s => ?_, fun s hh => ?_, fun s hh t => ?_⟩
  · obtain ⟨t, he, -⟩ := exec_next insn s
    exact ⟨t, he⟩
  · obtain ⟨t, ht, ⟨hk, -⟩ | ⟨-, hf⟩⟩ := step_next hh
    · exact ⟨t, ht, fun hth => by simp [hk, hh] at hth⟩
    · exact ⟨t, ht, fun _ => hf⟩
  · rw [step_halted hh]
    nofun

end Sys2Proof.Machine
end

section
/-! The frame of each state update and of each instruction: which parts of the state and which registers it may write (10_state.md R20 to R30; 20_memory.md R68). -/

namespace Sys2Proof.Machine

theorem Completes.of_next {insn : Instr} {s t : State} {post : State → Prop} (h : Completes insn s post)
    (he : exec insn s = .next t) : post t := by
  obtain ⟨u, hu, hp⟩ := h
  cases hu.symm.trans he
  exact hp

/-! ### Parts: one lemma for each set of parts that an update writes together -/

theorem KeepsAllBut.mono {ps qs : List Part} {s t : State} (h : KeepsAllBut ps s t) (hsub : ps ⊆ qs) :
    KeepsAllBut qs s t :=
  fun p hp => h p fun hm => hp (hsub hm)

theorem KeepsAllBut.refl (ps : List Part) (s : State) : KeepsAllBut ps s s := by
  intro p _
  cases p <;> simp [Part.same]

/-- Every update of registers alone has this form: `setV`, `setFlag`, `setVWithFlag`, `loadRegs`. -/
theorem keepsAllBut_regs (s : State) (w : Vector Byte 16) : KeepsAllBut [.regs] s { s with v := w } := by
  intro p hp
  cases p <;> simp [Part.same] at hp ⊢

theorem keepsAllBut_index (s : State) (a : Word) : KeepsAllBut [.index] s (s.setI a) := by
  intro p hp
  cases p <;> simp [Part.same] at hp ⊢

/-- The index register and the flag (R181). -/
theorem keepsAllBut_regs_index (s : State) (w : Vector Byte 16) (a : Word) :
    KeepsAllBut [.regs, .index] s { s with v := w, i := a } := by
  intro p hp
  cases p <;> simp [Part.same] at hp ⊢

theorem keepsAllBut_pc (s : State) (a : Word) : KeepsAllBut [.pc] s (s.setPc a) := by
  intro p hp
  cases p <;> simp [Part.same] at hp ⊢

/-- A push or a pop, and the jump with it (R121, R123). -/
theorem keepsAllBut_pc_stack (s : State) (a : Word) (entries : List Word) :
    KeepsAllBut [.pc, .stack] s { s with pc := a, stack := entries } := by
  intro p hp
  cases p <;> simp [Part.same, State.getV] at hp ⊢

theorem keepsAllBut_delay (s : State) (b : Byte) : KeepsAllBut [.delay] s (s.setDT b) := by
  intro p hp
  cases p <;> simp [Part.same] at hp ⊢

theorem keepsAllBut_sound (s : State) (b : Byte) : KeepsAllBut [.sound] s (s.setST b) := by
  intro p hp
  cases p <;> simp [Part.same] at hp ⊢

theorem keepsAllBut_memory (s : State) (m : Memory) : KeepsAllBut [.memory] s { s with mem := m } := by
  intro p hp
  cases p <;> simp [Part.same, State.getV] at hp ⊢

theorem keepsAllBut_plane_dirty (s : State) : KeepsAllBut [.plane, .dirty] s s.planeClear := by
  intro p hp
  cases p <;> simp [Part.same] at hp ⊢

/-- A draw, with its collision flag (R192 to R195). -/
theorem keepsAllBut_regs_plane_dirty (s : State) (bs : List Byte) (xs ys : Byte) :
    KeepsAllBut [.regs, .plane, .dirty] s (s.planeDraw bs xs ys) := by
  intro p hp
  cases p <;> simp [Part.same, State.planeDraw] at hp ⊢

theorem keepsAllBut_status (s : State) (insn : Instr) (c : FaultCause) (a : Word) (n : Nat) :
    KeepsAllBut [.status] s (s.raiseIn insn c a n) := by
  rw [State.raiseIn_eq]
  intro p hp
  cases p <;> simp [Part.same, State.getV] at hp ⊢

theorem State.skipIf_keepsAllBut (s : State) (c : Bool) : KeepsAllBut [.pc] s (s.skipIf c) := by
  cases c
  · rw [State.skipIf_false]; exact .refl _ s
  · rw [State.skipIf_true]; exact keepsAllBut_pc s _

theorem State.popToPc_keepsAllBut (s : State) : KeepsAllBut [.pc, .stack] s s.popToPc := by
  rcases s.popToPc_cases with ⟨-, h⟩ | ⟨below, top, -, h⟩ <;> rw [h]
  · exact .refl _ s
  · exact keepsAllBut_pc_stack s top below

theorem State.storeBlock_keepsAllBut (s : State) (insn : Instr) (bs : List Byte) :
    KeepsAllBut [.memory, .status] s (s.storeBlock insn bs) := by
  rcases s.storeBlock_cases insn bs with ⟨-, h⟩ | ⟨-, h⟩ <;> rw [h]
  · exact (keepsAllBut_memory s _).mono (by simp)
  · exact (keepsAllBut_status s insn _ _ _).mono (by simp)

theorem State.loadRegs_keepsAllBut (s : State) (bs : List Byte) (k : Nat) :
    KeepsAllBut [.regs] s (s.loadRegs bs k) := by
  obtain ⟨w, h⟩ := s.loadRegs_frame bs k
  rw [h]
  exact keepsAllBut_regs s w

/-! ### Parts: the instructions -/

theorem call_keepsAllBut (nnn : Addr) (s : State) :
    Completes (.call nnn) s (KeepsAllBut [.pc, .stack, .status] s) := by
  rcases Nat.lt_or_ge s.depth s.cfg.stackDepth with h | h
  · exact ⟨_, exec_call_of_room h, (keepsAllBut_pc_stack s _ _).mono (by simp)⟩
  · exact ⟨_, exec_call_of_full h, (keepsAllBut_status s _ _ _ _).mono (by simp)⟩

theorem drw_keepsAllBut (x y : Reg) (n : Nibble) (s : State) :
    Completes (.drw x y n) s (KeepsAllBut [.regs, .plane, .dirty, .status] s) := by
  rcases Nat.lt_or_ge 4096 (s.i.toNat + n.toNat) with h | h
  · exact ⟨_, exec_drw_of_overrun h, (keepsAllBut_status s _ _ _ _).mono (by simp)⟩
  · exact ⟨_, exec_drw_of_fits h, (keepsAllBut_regs_plane_dirty s _ _ _).mono (by simp)⟩

theorem ldLoad_keepsAllBut (x : Reg) (s : State) :
    Completes (.ldLoad x) s (KeepsAllBut [.regs, .status] s) := by
  rcases Nat.lt_or_ge 4096 (s.i.toNat + blockLength x) with h | h
  · exact ⟨_, exec_ldLoad_of_overrun h, (keepsAllBut_status s _ _ _ _).mono (by simp)⟩
  · exact ⟨_, exec_ldLoad_of_fits h, (s.loadRegs_keepsAllBut _ _).mono (by simp)⟩

theorem ldVxK_keepsAllBut (x : Reg) (s : State) : Completes (.ldVxK x) s (KeepsAllBut [.regs, .pc] s) := by
  cases h : s.anyKey with
  | none => exact ⟨_, exec_ldVxK_of_none h, (keepsAllBut_pc s _).mono (by simp)⟩
  | some k => exact ⟨_, exec_ldVxK_of_some h, (keepsAllBut_regs s _).mono (by simp)⟩

/-- Each instruction completes and writes only the parts of its list. -/
theorem exec_keepsAllBut (insn : Instr) (s : State) : Completes insn s (KeepsAllBut (destParts insn) s) := by
  cases insn with
  | cls => exact ⟨_, rfl, keepsAllBut_plane_dirty s⟩
  | ret => exact ⟨_, rfl, s.popToPc_keepsAllBut⟩
  | call nnn => exact call_keepsAllBut nnn s
  | jp | jpV0 => exact ⟨_, rfl, keepsAllBut_pc s _⟩
  | seImm | sneImm | seReg | sneReg | skp | sknp => exact ⟨_, rfl, s.skipIf_keepsAllBut _⟩
  | ldI | ldF => exact ⟨_, rfl, keepsAllBut_index s _⟩
  | addI => exact ⟨_, rfl, keepsAllBut_regs_index s _ _⟩
  | drw x y n => exact drw_keepsAllBut x y n s
  | ldVxK x => exact ldVxK_keepsAllBut x s
  | ldDTVx => exact ⟨_, rfl, keepsAllBut_delay s _⟩
  | ldSTVx => exact ⟨_, rfl, keepsAllBut_sound s _⟩
  | ldB | ldStore => exact ⟨_, rfl, s.storeBlock_keepsAllBut _ _⟩
  | ldLoad x => exact ldLoad_keepsAllBut x s
  | _ => exact ⟨_, rfl, keepsAllBut_regs s _⟩

/-- Settles O52: every instruction completes within its frame, by its case in `exec_keepsAllBut`. -/
theorem instructionsWriteOnlyTheirParts : Obligations.InstructionsWriteOnlyTheirParts := by
  unfold Obligations.InstructionsWriteOnlyTheirParts
  exact fun insn s t he => (exec_keepsAllBut insn s).of_next he

/-! ### The construction parameters (R30) -/

theorem config_not_mem_destParts (insn : Instr) : Part.config ∉ destParts insn := by
  cases insn <;> simp [destParts]

theorem exec_cfg {insn : Instr} {s t : State} (he : exec insn s = .next t) : t.cfg = s.cfg :=
  (exec_keepsAllBut insn s).of_next he .config (config_not_mem_destParts insn)

theorem engineStep_cfg {s t : State} (he : engineStep s = .next t) : t.cfg = s.cfg := by
  rcases engineStep_cases s with ⟨w, insn, -, -, -, h⟩ | ⟨w, f, -, -, -, h⟩ | ⟨-, -, h⟩ <;> rw [h] at he
  · rw [exec_cfg he, State.setPc_cfg]
  · cases he; rfl
  · cases he; rfl

/-- Settles O53: no instruction lists the parameters, and what a fire does around the engine step or the frame step leaves them. -/
theorem parametersAreImmutable : Obligations.ParametersAreImmutable := by
  unfold Obligations.ParametersAreImmutable
  intro s t h
  rcases step_cases h with ⟨-, ⟨-, u, hu, rfl⟩ | ⟨-, rfl⟩⟩
  · rw [State.nextInput_cfg, engineStep_cfg hu, State.advanceInsnClock_cfg]
  · rw [State.nextInput_cfg, frameStep_eq, State.advanceFrameClock_cfg]

/-! ### Registers -/

theorem State.setV_keepsRegsBut (s : State) (x : Reg) (b : Byte) : KeepsRegsBut [x] s (s.setV x b) := by
  intro r hr
  rw [State.getV_setV, if_neg (by simpa using hr)]

theorem State.setFlag_keepsRegsBut (s : State) (f : Bool) : KeepsRegsBut [15] s (s.setFlag f) :=
  s.setV_keepsRegsBut regVF (flagByte f)

theorem State.setVWithFlag_keepsRegsBut (s : State) (x : Reg) (b : Byte) (f : Bool) :
    KeepsRegsBut [x, 15] s (s.setVWithFlag x b f) := by
  intro r hr
  obtain ⟨hx, hF⟩ : r ≠ x ∧ r ≠ 15 := by simpa using hr
  rw [State.getV_setVWithFlag, if_neg hF, if_neg hx]

/-- An instruction whose list of parts has no registers keeps them all. -/
theorem exec_keepsRegs {insn : Instr} {s : State} (h : Part.regs ∉ destParts insn) (rs : List Reg) :
    Completes insn s (KeepsRegsBut rs s) := by
  obtain ⟨t, he, hk⟩ := exec_keepsAllBut insn s
  exact ⟨t, he, fun r _ => hk .regs h r⟩

theorem mem_destRegs_ldLoad {x r : Reg} : r ∈ destRegs (.ldLoad x) ↔ r.toNat ≤ x.toNat := by
  simp only [destRegs, List.mem_filterMap, List.mem_range]
  constructor
  · rintro ⟨k, hk, he⟩
    split at he
    · next hkx => cases he; simpa [Nat.mod_eq_of_lt hk] using hkx
    · cases he
  · intro h
    exact ⟨r.toNat, r.isLt, by simp [h]⟩

theorem drw_keepsRegsBut (x y : Reg) (n : Nibble) (s : State) : Completes (.drw x y n) s (KeepsRegsBut [15] s) := by
  rcases Nat.lt_or_ge 4096 (s.i.toNat + n.toNat) with h | h
  · exact ⟨_, exec_drw_of_overrun h, fun r _ => rfl⟩
  · exact ⟨_, exec_drw_of_fits h, State.setFlag_keepsRegsBut _ _⟩

theorem ldLoad_keepsRegsBut (x : Reg) (s : State) :
    Completes (.ldLoad x) s (KeepsRegsBut (destRegs (.ldLoad x)) s) := by
  rcases Nat.lt_or_ge 4096 (s.i.toNat + blockLength x) with h | h
  · exact ⟨_, exec_ldLoad_of_overrun h, fun r _ => rfl⟩
  · refine ⟨_, exec_ldLoad_of_fits h, fun r hr => ?_⟩
    rw [mem_destRegs_ldLoad] at hr
    have hx := x.isLt
    rw [State.getV_loadRegs, if_neg] <;> simp only [Memory.length_readBlock, blockLength] <;> omega

theorem ldVxK_keepsRegsBut (x : Reg) (s : State) : Completes (.ldVxK x) s (KeepsRegsBut [x] s) := by
  cases h : s.anyKey with
  | none => exact ⟨_, exec_ldVxK_of_none h, fun r _ => rfl⟩
  | some k => exact ⟨_, exec_ldVxK_of_some h, s.setV_keepsRegsBut x k⟩

/-- Each instruction completes and writes only the registers of its list. -/
theorem exec_keepsRegsBut (insn : Instr) (s : State) : Completes insn s (KeepsRegsBut (destRegs insn) s) := by
  cases insn with
  | ldImm | addImm | ldReg | orReg | andReg | xorReg | addReg | rnd | ldVxDT =>
    exact ⟨_, rfl, s.setV_keepsRegsBut _ _⟩
  | subReg | subn | shr | shl => exact ⟨_, rfl, s.setVWithFlag_keepsRegsBut _ _ _⟩
  | addI => exact ⟨_, rfl, (s.setI _).setFlag_keepsRegsBut _⟩
  | drw x y n => exact drw_keepsRegsBut x y n s
  | ldVxK x => exact ldVxK_keepsRegsBut x s
  | ldLoad x => exact ldLoad_keepsRegsBut x s
  | _ => exact exec_keepsRegs (by simp [destParts]) _

/-- Settles O51: every instruction completes within its register frame, by its case in `exec_keepsRegsBut`. -/
theorem instructionsWriteOnlyTheirRegisters : Obligations.InstructionsWriteOnlyTheirRegisters := by
  unfold Obligations.InstructionsWriteOnlyTheirRegisters
  exact fun insn s t he => (exec_keepsRegsBut insn s).of_next he

end Sys2Proof.Machine
end

section
/-! CALL and RET as a pair on the call stack (10_state.md R25; 40_flow.md R121, R123). -/

namespace Sys2Proof.Machine

/-- Settles O22: CALL leaves the old stack with `pc` on top, and RET pops exactly that entry to `pc`. -/
theorem returnUndoesCall : Obligations.ReturnUndoesCall := by
  unfold Obligations.ReturnUndoesCall
  intro nnn s t u v hroom hcall hstack hret
  cases (exec_call_of_room hroom).symm.trans hcall
  have hpop : u.popToPc = { u with stack := s.stack, pc := s.pc } := State.popToPc_concat hstack
  have hv : u.popToPc = v := by simpa only [exec, execRet, Host.Outcome.next.injEq] using hret
  rw [← hv, hpop]
  exact ⟨rfl, rfl⟩

end Sys2Proof.Machine
end

section
/-! The invariant of the block: each update of the state keeps it under a condition of its own, and so do each instruction, each fire and each construction (10_state.md R23, R25, R28, R31). -/

namespace Sys2Proof.Machine

/-! ### Updates of the state -/

/-- The fields that the invariant speaks of. -/
def State.invFields (s : State) : Memory × Plane × Config × List Word × Word × Bool × Option FaultRecord :=
  (s.mem, s.plane, s.cfg, s.stack, s.pc, s.halted, s.fault)

/-- An update of other fields keeps the invariant. -/
theorem State.Inv.congr {s t : State} (h : s.Inv) (e : t.invFields = s.invFields) : t.Inv := by
  simp only [State.invFields, Prod.mk.injEq] at e
  obtain ⟨hmem, hplane, hcfg, hstack, hpc, hhalted, hfault⟩ := e
  constructor <;> simp only [State.depth, hmem, hplane, hcfg, hstack, hpc, hhalted, hfault]
  exacts [h.mem_wf, h.plane_wf, h.cfg_wf, h.depth_le, h.entries, h.pc_le, h.halted_iff]

theorem State.Inv.setPc {s : State} (h : s.Inv) {a : Word} (ha : a.toNat ≤ 0x10FE) : (s.setPc a).Inv :=
  { h with pc_le := ha }

theorem State.Inv.withMem {s : State} (h : s.Inv) {m : Memory} (hm : m.wf = true) : { s with mem := m }.Inv :=
  { h with mem_wf := hm }

theorem State.Inv.raise {s : State} (h : s.Inv) (c : FaultCause) (pc0 a : Word) (n : Nat) (w : Option Word) :
    (s.raise c pc0 a n w).Inv :=
  { h with halted_iff := rfl }

theorem State.Inv.raiseIn {s : State} (h : s.Inv) (insn : Instr) (c : FaultCause) (a : Word) (n : Nat) :
    (s.raiseIn insn c a n).Inv :=
  h.raise c _ a n _

theorem planeWf_zero (g : Geometry) : planeWf g 0 = true := by
  rw [planeWf, decide_eq_true_eq, show (0 : Plane) = 0#8192 from rfl, BitVec.toNat_zero]
  exact Nat.two_pow_pos _

theorem State.Inv.planeClear {s : State} (h : s.Inv) : s.planeClear.Inv :=
  { h with plane_wf := planeWf_zero _ }

theorem State.Inv.planeDraw {s : State} (h : s.Inv) (bs : List Byte) (xs ys : Byte) : (s.planeDraw bs xs ys).Inv :=
  { h with plane_wf := (drew_drawSprite s.cfg.geometry s.plane bs xs ys).wf h.plane_wf }

theorem State.Inv.storeBlock {s : State} (h : s.Inv) (insn : Instr) (bs : List Byte) :
    (s.storeBlock insn bs).Inv := by
  rcases s.storeBlock_cases insn bs with ⟨hfits, e⟩ | ⟨-, e⟩ <;> rw [e]
  · exact h.withMem (Memory.wf_writeBlock h.mem_wf hfits)
  · exact h.raiseIn insn _ _ _

theorem State.Inv.loadRegs {s : State} (h : s.Inv) (bs : List Byte) (k : Nat) : (s.loadRegs bs k).Inv := by
  obtain ⟨w, e⟩ := s.loadRegs_frame bs k
  rw [e]
  exact h.congr rfl

/-- A popped entry is a return address, at most 0x1000, so it may be a `pc`. -/
theorem State.Inv.popToPc {s : State} (h : s.Inv) : s.popToPc.Inv := by
  rcases s.popToPc_cases with ⟨-, e⟩ | ⟨below, top, hs, e⟩ <;> rw [e]
  · exact h
  · have hdepth : below.length + 1 ≤ s.cfg.stackDepth := by simpa [State.depth, hs] using h.depth_le
    have htop := h.entries top (by simp [hs])
    exact
      { h with
        depth_le := Nat.le_of_succ_le hdepth
        entries := fun a ha => h.entries a (by simp [hs, ha])
        pc_le := Nat.le_trans htop.2 (by decide) }

theorem State.Inv.push {s : State} (h : s.Inv) {a : Word} (hroom : s.depth < s.cfg.stackDepth)
    (ha : 0x002 ≤ a.toNat ∧ a.toNat ≤ 0x1000) : (s.push a).Inv :=
  { h with
    depth_le := by simpa [State.depth] using hroom
    entries := by
      intro b hb
      rcases List.mem_append.mp hb with hb | hb
      · exact h.entries b hb
      · cases List.mem_singleton.mp hb; exact ha }

theorem State.Inv.nextInput {s : State} (h : s.Inv) : s.nextInput.Inv :=
  h.congr (by simp [State.invFields])

theorem State.Inv.frameStep {s : State} (h : s.Inv) : (frameStep s).Inv := by
  rw [frameStep_eq]
  exact h.congr rfl

/-! ### Jump targets -/

theorem zextAddr_toNat (nnn : Addr) : (zextAddr nnn).toNat = nnn.toNat := by
  have := nnn.isLt
  rw [zextAddr, BitVec.toNat_setWidth, Nat.mod_eq_of_lt (by omega)]

theorem zextAddr_le (nnn : Addr) : (zextAddr nnn).toNat ≤ 0x10FE := by
  have := nnn.isLt
  rw [zextAddr_toNat]
  omega

/-- The highest target of JP V0 is 0xFFF + 0xFF, the bound of R23. -/
theorem jumpV0Target_le (s : State) (nnn : Addr) : (jumpV0Target s nnn).toNat ≤ 0x10FE := by
  have h1 := nnn.isLt
  have h2 := (s.getV 0).isLt
  rw [jumpV0Target, BitVec.toNat_add, zextAddr_toNat, BitVec.toNat_setWidth]
  omega

/-! ### Instructions

An instruction runs just after the fetch, when `pc` is `pc0 + 2` and the two bytes at `pc0` lay in memory. -/

section AfterFetch

variable {s : State} (h : s.Inv) (hlo : 0x002 ≤ s.pc.toNat) (hhi : s.pc.toNat ≤ 0x1000)

include h hhi in
theorem State.Inv.skipIf (c : Bool) : (s.skipIf c).Inv := by
  cases c
  · rw [State.skipIf_false]; exact h
  · rw [State.skipIf_true]; exact h.setPc (by bv_omega)

include h hlo hhi in
theorem call_inv (nnn : Addr) : Completes (.call nnn) s State.Inv := by
  rcases Nat.lt_or_ge s.depth s.cfg.stackDepth with hd | hd
  · exact ⟨_, exec_call_of_room hd, (h.push hd ⟨hlo, hhi⟩).setPc (zextAddr_le nnn)⟩
  · exact ⟨_, exec_call_of_full hd, h.raiseIn _ _ _ _⟩

include h in
theorem drw_inv (x y : Reg) (n : Nibble) : Completes (.drw x y n) s State.Inv := by
  rcases Nat.lt_or_ge 4096 (s.i.toNat + n.toNat) with hi | hi
  · exact ⟨_, exec_drw_of_overrun hi, h.raiseIn _ _ _ _⟩
  · exact ⟨_, exec_drw_of_fits hi, h.planeDraw _ _ _⟩

include h in
theorem ldLoad_inv (x : Reg) : Completes (.ldLoad x) s State.Inv := by
  rcases Nat.lt_or_ge 4096 (s.i.toNat + blockLength x) with hi | hi
  · exact ⟨_, exec_ldLoad_of_overrun hi, h.raiseIn _ _ _ _⟩
  · exact ⟨_, exec_ldLoad_of_fits hi, h.loadRegs _ _⟩

include h hlo hhi in
theorem ldVxK_inv (x : Reg) : Completes (.ldVxK x) s State.Inv := by
  cases hk : s.anyKey with
  | none => exact ⟨_, exec_ldVxK_of_none hk, h.setPc (by unfold State.insnAddr; bv_omega)⟩
  | some k => exact ⟨_, exec_ldVxK_of_some hk, h.congr rfl⟩

include h hlo hhi in
/-- Each instruction keeps the invariant; the forms that move `pc`, the stack, memory or the plane, or raise a fault, by their own rule. -/
theorem exec_inv (insn : Instr) : Completes insn s State.Inv := by
  cases insn with
  | cls => exact ⟨_, rfl, h.planeClear⟩
  | ret => exact ⟨_, rfl, h.popToPc⟩
  | jp nnn => exact ⟨_, rfl, h.setPc (zextAddr_le nnn)⟩
  | call nnn => exact call_inv h hlo hhi nnn
  | jpV0 nnn => exact ⟨_, rfl, h.setPc (jumpV0Target_le s nnn)⟩
  | seImm | sneImm | seReg | sneReg | skp | sknp => exact ⟨_, rfl, h.skipIf hhi _⟩
  | drw x y n => exact drw_inv h x y n
  | ldVxK x => exact ldVxK_inv h hlo hhi x
  | ldB | ldStore => exact ⟨_, rfl, h.storeBlock _ _⟩
  | ldLoad x => exact ldLoad_inv h x
  | _ => exact ⟨_, rfl, h.congr rfl⟩

end AfterFetch

/-! ### Fires -/

theorem engineStep_inv {s t : State} (h : s.Inv) (he : engineStep s = .next t) : t.Inv := by
  rcases engineStep_cases s with ⟨w, insn, hpc, -, -, e⟩ | ⟨w, f, hpc, -, -, e⟩ | ⟨-, -, e⟩ <;> rw [e] at he
  · have hnext : (s.pc + 2).toNat = s.pc.toNat + 2 := by bv_omega
    have hlo : 0x002 ≤ (s.setPc (s.pc + 2)).pc.toNat := by rw [State.setPc_pc]; omega
    have hhi : (s.setPc (s.pc + 2)).pc.toNat ≤ 0x1000 := by rw [State.setPc_pc]; omega
    exact (exec_inv (h.setPc (by omega)) hlo hhi insn).of_next he
  · cases he
    exact h.setPc (by bv_omega)
  · cases he
    exact h.raise _ _ _ _ _

/-- Settles O45: a step is a fire of one clock, and the engine step, the frame step and the moves of clock and environment around them keep the invariant. -/
theorem everyStepKeepsTheInvariant : Obligations.EveryStepKeepsTheInvariant := by
  unfold Obligations.EveryStepKeepsTheInvariant
  intro s t h hstep
  rcases step_cases hstep with ⟨-, ⟨-, u, hu, rfl⟩ | ⟨-, rfl⟩⟩
  · have hclock : s.advanceInsnClock.Inv := h.congr rfl
    exact (engineStep_inv hclock hu).nextInput
  · have hclock : s.advanceFrameClock.Inv := h.congr rfl
    exact hclock.frameStep.nextInput

/-! ### Construction -/

theorem construct_of_fits {c : Config} {program : List Byte} {t0 : Nat} (h : program.length ≤ 3584) :
    State.construct c program t0 =
      { State.blank c t0 with mem := loadProgram (loadFont [] c.font) program } := by
  simp [State.construct, programFits, h]

theorem construct_of_oversized {c : Config} {program : List Byte} {t0 : Nat} (h : 3584 < program.length) :
    State.construct c program t0 = (State.blank c t0).raise .loadOversize 0x200 0x200 program.length none := by
  simp [State.construct, programFits, Nat.not_le.mpr h]

theorem blank_inv {c : Config} (hc : c.wf = true) (t0 : Nat) : (State.blank c t0).Inv where
  mem_wf := rfl
  plane_wf := planeWf_zero _
  cfg_wf := hc
  depth_le := Nat.zero_le _
  entries := nofun
  pc_le := show (0x200 : Word).toNat ≤ 0x10FE by decide
  halted_iff := rfl

theorem wf_loadFont {m : Memory} (hm : m.wf = true) (font : Vector Byte 80) : (loadFont m font).wf = true :=
  Memory.wf_writeBlock hm (by rw [Vector.length_toList]; decide)

theorem wf_loadProgram {m : Memory} (hm : m.wf = true) {program : List Byte} (h : program.length ≤ 3584) :
    (loadProgram m program).wf = true :=
  Memory.wf_writeBlock hm (by unfold progBase memSize; omega)

/-- Settles O47: font and program are written inside memory, and a refused program leaves the start values with a record. -/
theorem everyConstructionMeetsTheInvariant : Obligations.EveryConstructionMeetsTheInvariant := by
  unfold Obligations.EveryConstructionMeetsTheInvariant
  intro c program t0 hc
  rcases Nat.lt_or_ge 3584 program.length with h | h
  · rw [construct_of_oversized h]
    exact (blank_inv hc t0).raise _ _ _ _ _
  · rw [construct_of_fits h]
    exact (blank_inv hc t0).withMem (wf_loadProgram (wf_loadFont rfl c.font) h)

/-- Settles O46: the reset state is the start state before any load, with the default parameters. -/
theorem resetMeetsTheInvariant : Obligations.ResetMeetsTheInvariant := by
  unfold Obligations.ResetMeetsTheInvariant
  have hreset : State.reset = State.blank defaultConfig Config.startTimeUs := rfl
  rw [hreset]
  exact blank_inv (by decide) _

end Sys2Proof.Machine
end

section
/-! The start state: what construction leaves in every field and at every address (10_state.md R35; 70_reset_and_hazards.md R280 to R282). -/

namespace Sys2Proof.Machine

/-- Outside the font an unlisted address reads 0x00. -/
theorem background_of_not_font {a : Nat} (h : ¬(0x050 ≤ a ∧ a ≤ 0x09F)) : background a = 0 := by
  unfold background
  split
  · next hle => exact List.getD_eq_default _ _ (by simp only [Vector.length_toList, fontBase] at *; omega)
  · rfl

theorem read_loadFont_glyph (m : Memory) (font : Vector Byte 80) {k : Nat} (h : k < 80) :
    (loadFont m font).read (0x050 + k) = font.toList.getD k 0 := by
  rw [loadFont, Memory.read_writeBlock, if_pos (by simp only [Vector.length_toList, fontBase]; omega), Nat.add_sub_cancel_left]

theorem read_loadFont_of_not_font (m : Memory) (font : Vector Byte 80) {a : Nat} (h : ¬(0x050 ≤ a ∧ a ≤ 0x09F)) :
    (loadFont m font).read a = m.read a := by
  rw [loadFont, Memory.read_writeBlock, if_neg (by simp only [Vector.length_toList, fontBase]; omega)]

theorem read_loadProgram_byte (m : Memory) (program : List Byte) {k : Nat} (h : k < program.length) :
    (loadProgram m program).read (0x200 + k) = program.getD k 0 := by
  rw [loadProgram, Memory.read_writeBlock, if_pos (by simp [progBase, h]), Nat.add_sub_cancel_left]

theorem read_loadProgram_of_not_program (m : Memory) {program : List Byte} {a : Nat}
    (h : ¬(0x200 ≤ a ∧ a < 0x200 + program.length)) : (loadProgram m program).read a = m.read a := by
  rw [loadProgram, Memory.read_writeBlock, if_neg h]

/-- Settles O1: font and program land at disjoint blocks, the rest of memory reads its background, and every other field is written out in `State.blank`. -/
theorem constructionGivesTheStartState : Obligations.ConstructionGivesTheStartState := by
  unfold Obligations.ConstructionGivesTheStartState
  intro c program t0 hlen s
  have hs : s = { State.blank c t0 with mem := loadProgram (loadFont [] c.font) program } := construct_of_fits hlen
  rw [hs]
  refine ⟨fun r => ?_, rfl, rfl, rfl, rfl, rfl, rfl, fun g r hg hr => ?_, fun k hk => read_loadProgram_byte _ _ hk,
    fun a _ hfont hprog => ?_, fun x y _ => ?_, rfl, rfl, rfl, rfl, rfl, rfl⟩
  · simp [State.getV, State.blank, State.reset]
  · show (loadProgram _ _).read _ = _
    rw [read_loadProgram_of_not_program _ (by omega), Nat.add_assoc, read_loadFont_glyph _ _ (by omega)]
  · show (loadProgram _ _).read a = 0
    rw [read_loadProgram_of_not_program _ hprog, read_loadFont_of_not_font _ _ hfont, Memory.read_nil,
      background_of_not_font hfont]
  · simp [cell, State.blank, State.reset]

end Sys2Proof.Machine
end

section
/-! Fetch and store: a fetch past memory stops the block, and a fetch after a store sees the stored bytes (20_memory.md R64, R66, R75, R78). -/

namespace Sys2Proof.Machine

/-! ### A fetch past memory -/

/-- An engine step whose fetch fails (R66, R241). -/
theorem engineStep_of_overrun {s : State} (h : 4096 < s.pc.toNat + 2) :
    engineStep s = .next (s.raise .fetchRange s.pc s.pc 2 none) := by
  rw [engineStep, State.fetch16_of_overrun h]

/-- Any fault, raised by an instruction or by the fetch, writes the record and the halt alone (R241, R243). -/
theorem State.raise_keepsAllBut (s : State) (c : FaultCause) (pc0 a : Word) (n : Nat) (w : Option Word) :
    KeepsAllBut [.status] s (s.raise c pc0 a n w) := by
  intro p hp
  cases p <;> simp [Part.same] at hp ⊢

/-- What a fire of the instruction clock does around the engine step writes only clocks and environment (R255, R261). -/
theorem KeepsAllBut.around_engineStep {ps : List Part} {s u : State} (h : KeepsAllBut ps s.advanceInsnClock u)
    (hclocks : .clocks ∈ ps) (henv : .environment ∈ ps) : KeepsAllBut ps s u.nextInput := by
  intro p hp
  have hsame := h p hp
  cases p with
  | clocks => exact absurd hclocks hp
  | environment => exact absurd henv hp
  | _ => simpa [Part.same] using hsame

/-- Settles O11: the engine step is the fault of the failing fetch, and the fire around it moves only clocks and environment. -/
theorem fetchPastMemoryHaltsTheBlock : Obligations.FetchPastMemoryHaltsTheBlock := by
  unfold Obligations.FetchPastMemoryHaltsTheBlock
  intro s hrun hclock hpc
  have hover : 4096 < s.advanceInsnClock.pc.toNat + 2 := by rw [State.advanceInsnClock_pc]; omega
  have hframe := (s.advanceInsnClock.raise_keepsAllBut .fetchRange s.pc s.pc 2 none).mono
    (qs := [.status, .clocks, .environment]) (by simp)
  exact ⟨(s.advanceInsnClock.raise .fetchRange s.pc s.pc 2 none).nextInput,
    by rw [step_instruction hrun hclock, engineStep_of_overrun hover, onNext_next, State.advanceInsnClock_pc],
    by simp, by simp, hframe.around_engineStep (by simp) (by simp)⟩

/-! ### A fetch after a store -/

/-- A block write succeeds exactly when the block lies in memory, and then it changes memory alone (R64). -/
theorem State.memWrite_eq_some {s t : State} {a : Word} {bs : List Byte} :
    s.memWrite a bs = some t ↔
      a.toNat + bs.length ≤ 4096 ∧ t = { s with mem := s.mem.writeBlock a.toNat bs } := by
  rcases Nat.lt_or_ge 4096 (a.toNat + bs.length) with h | h
  · simp [State.memWrite_of_overrun h, Nat.not_le.mpr h]
  · simp [State.memWrite_of_fits h, h, eq_comm]

/-- Settles O44: both bytes of the fetched word are reads of the written memory, which `Memory.read_writeBlock` gives byte by byte. -/
theorem storedBytesAreFetchedAtOnce : Obligations.StoredBytesAreFetchedAtOnce := by
  unfold Obligations.StoredBytesAreFetchedAtOnce
  intro s t a p bytes hwrite hp seen
  obtain ⟨-, rfl⟩ := State.memWrite_eq_some.mp hwrite
  have hread (b : Nat) : (s.mem.writeBlock a.toNat bytes).read b = seen b :=
    Memory.read_writeBlock s.mem a.toNat b bytes
  rw [State.fetch16_of_fits hp, hread, hread]

end Sys2Proof.Machine
end

section
/-! The encoding: decoder and encoder are inverse to each other, the unknown words are those of R98, and the decode tree is the opcode table (30_encoding.md R91 to R103). -/

namespace Sys2Proof

/-! ### The major decode, one equation a nibble (R93) -/

section

variable {w : Word}

@[simp] theorem decodeWord_op0 (h : fieldOp w = 0x0#4) :
    decodeWord w = decode0 w := by
  unfold decodeWord; rw [h]; rfl

@[simp] theorem decodeWord_op1 (h : fieldOp w = 0x1#4) :
    decodeWord w = .instr (.jp (fieldNNN w)) := by
  unfold decodeWord; rw [h]; rfl

@[simp] theorem decodeWord_op2 (h : fieldOp w = 0x2#4) :
    decodeWord w = .instr (.call (fieldNNN w)) := by
  unfold decodeWord; rw [h]; rfl

@[simp] theorem decodeWord_op3 (h : fieldOp w = 0x3#4) :
    decodeWord w = .instr (.seImm (fieldX w) (fieldNN w)) := by
  unfold decodeWord; rw [h]; rfl

@[simp] theorem decodeWord_op4 (h : fieldOp w = 0x4#4) :
    decodeWord w = .instr (.sneImm (fieldX w) (fieldNN w)) := by
  unfold decodeWord; rw [h]; rfl

@[simp] theorem decodeWord_op5 (h : fieldOp w = 0x5#4) :
    decodeWord w = if fieldN w = 0x0#4 then .instr (.seReg (fieldX w) (fieldY w)) else .unknown .family5 := by
  unfold decodeWord; rw [h]; rfl

@[simp] theorem decodeWord_op6 (h : fieldOp w = 0x6#4) :
    decodeWord w = .instr (.ldImm (fieldX w) (fieldNN w)) := by
  unfold decodeWord; rw [h]; rfl

@[simp] theorem decodeWord_op7 (h : fieldOp w = 0x7#4) :
    decodeWord w = .instr (.addImm (fieldX w) (fieldNN w)) := by
  unfold decodeWord; rw [h]; rfl

@[simp] theorem decodeWord_op8 (h : fieldOp w = 0x8#4) :
    decodeWord w = decode8 (fieldX w) (fieldY w) (fieldN w) := by
  unfold decodeWord; rw [h]; rfl

@[simp] theorem decodeWord_op9 (h : fieldOp w = 0x9#4) :
    decodeWord w = if fieldN w = 0x0#4 then .instr (.sneReg (fieldX w) (fieldY w)) else .unknown .family9 := by
  unfold decodeWord; rw [h]; rfl

@[simp] theorem decodeWord_opA (h : fieldOp w = 0xA#4) :
    decodeWord w = .instr (.ldI (fieldNNN w)) := by
  unfold decodeWord; rw [h]; rfl

@[simp] theorem decodeWord_opB (h : fieldOp w = 0xB#4) :
    decodeWord w = .instr (.jpV0 (fieldNNN w)) := by
  unfold decodeWord; rw [h]; rfl

@[simp] theorem decodeWord_opC (h : fieldOp w = 0xC#4) :
    decodeWord w = .instr (.rnd (fieldX w) (fieldNN w)) := by
  unfold decodeWord; rw [h]; rfl

@[simp] theorem decodeWord_opD (h : fieldOp w = 0xD#4) :
    decodeWord w = .instr (.drw (fieldX w) (fieldY w) (fieldN w)) := by
  unfold decodeWord; rw [h]; rfl

@[simp] theorem decodeWord_opE (h : fieldOp w = 0xE#4) :
    decodeWord w = decodeE (fieldX w) (fieldNN w) := by
  unfold decodeWord; rw [h]; rfl

@[simp] theorem decodeWord_opF (h : fieldOp w = 0xF#4) :
    decodeWord w = decodeF (fieldX w) (fieldNN w) := by
  unfold decodeWord; rw [h]; rfl

end

/-! ### Decoding what was encoded -/

/-- By the shape of the word (R91): the fields of the encoded word are the operands, and the fixed fields lead the decode tree back to the constructor. -/
theorem decodeWord_encode (insn : Instr) : decodeWord (encode insn) = .instr insn := by
  cases insn with
  | cls | ret => rfl
  | jp | call | ldI | jpV0 => simp [encode]
  | seImm | sneImm | ldImm | addImm | rnd => simp [encode]
  | seReg | sneReg | drw => simp [encode]
  | ldReg | orReg | andReg | xorReg | addReg | subReg | shr | subn | shl => simp [encode, decode8]
  | skp | sknp => simp [encode, decodeE]
  | ldVxDT | ldVxK | ldDTVx | ldSTVx | addI | ldF | ldB | ldStore | ldLoad => simp [encode, decodeF]

/-- Two bytes stored high byte first decode as their word (R66, R100). -/
theorem decodeBytes_of_word (w : Word) (rest : List Byte) :
    decodeBytes (highByte w :: lowByte w :: rest) = .decoded (decodeWord w) rest := by
  rw [decodeBytes, wordOfBytes_bytes]

/-- Settles O5: the two bytes are those of the encoded word, which `decodeWord_encode` decodes by its shape. -/
theorem decodeOfEncodeIsTheInstruction : Obligations.DecodeOfEncodeIsTheInstruction := by
  unfold Obligations.DecodeOfEncodeIsTheInstruction
  intro insn rest _
  rw [decodeBytes_of_word, decodeWord_encode]

/-! ### What the decoder may answer -/

/-- The major nibble of a family of unknown words (R98). -/
def UnknownFamily.op : UnknownFamily → BitVec 4
  | .family0 => 0x0
  | .family5 => 0x5
  | .family8 => 0x8
  | .family9 => 0x9
  | .familyE => 0xE
  | .familyF => 0xF

/-- An answer that fits the word: an instruction whose word it is, or the unknown family of its major nibble. -/
def Decoded.Fits (w : Word) : Decoded → Prop
  | .instr insn => encode insn = w
  | .unknown f => fieldOp w = f.op

theorem word_of_nnn {w : Word} {op : BitVec 4} (hop : fieldOp w = op) : op ++ fieldNNN w = w := by
  rw [← hop, word_nnn]

theorem word_of_xnn {w : Word} {op : BitVec 4} {nn : Byte} (hop : fieldOp w = op) (hnn : fieldNN w = nn) :
    op ++ fieldX w ++ nn = w := by
  rw [← hop, ← hnn, word_xnn]

theorem word_of_xyn {w : Word} {op n : BitVec 4} (hop : fieldOp w = op) (hn : fieldN w = n) :
    op ++ fieldX w ++ fieldY w ++ n = w := by
  rw [← hop, ← hn, word_xyn]

theorem decode0_fits {w : Word} (hop : fieldOp w = 0x0#4) : (decode0 w).Fits w := by
  unfold decode0
  split_ifs with hcls hret
  · exact hcls.symm
  · exact hret.symm
  · exact hop

theorem decode8_fits {w : Word} (hop : fieldOp w = 0x8#4) :
    (decode8 (fieldX w) (fieldY w) (fieldN w)).Fits w := by
  unfold decode8
  iterate 9 refine iteInduction (fun hn => word_of_xyn hop hn) fun _ => ?_
  exact hop

theorem decodeE_fits {w : Word} (hop : fieldOp w = 0xE#4) : (decodeE (fieldX w) (fieldNN w)).Fits w := by
  unfold decodeE
  iterate 2 refine iteInduction (fun hnn => word_of_xnn hop hnn) fun _ => ?_
  exact hop

theorem decodeF_fits {w : Word} (hop : fieldOp w = 0xF#4) : (decodeF (fieldX w) (fieldNN w)).Fits w := by
  unfold decodeF
  iterate 9 refine iteInduction (fun hnn => word_of_xnn hop hnn) fun _ => ?_
  exact hop

/-- The decode tree, branch by branch: each branch knows the major nibble, and the word is its fields. -/
theorem decodeWord_fits (w : Word) : (decodeWord w).Fits w := by
  unfold decodeWord
  dsimp only
  refine iteInduction (fun h => decode0_fits h) fun h0 => ?_
  refine iteInduction (fun h => word_of_nnn h) fun h1 => ?_
  refine iteInduction (fun h => word_of_nnn h) fun h2 => ?_
  refine iteInduction (fun h => word_of_xnn h rfl) fun h3 => ?_
  refine iteInduction (fun h => word_of_xnn h rfl) fun h4 => ?_
  refine iteInduction (fun h => iteInduction (fun hn => word_of_xyn h hn) fun _ => h) fun h5 => ?_
  refine iteInduction (fun h => word_of_xnn h rfl) fun h6 => ?_
  refine iteInduction (fun h => word_of_xnn h rfl) fun h7 => ?_
  refine iteInduction (fun h => decode8_fits h) fun h8 => ?_
  refine iteInduction (fun h => iteInduction (fun hn => word_of_xyn h hn) fun _ => h) fun h9 => ?_
  refine iteInduction (fun h => word_of_nnn h) fun hA => ?_
  refine iteInduction (fun h => word_of_nnn h) fun hB => ?_
  refine iteInduction (fun h => word_of_xnn h rfl) fun hC => ?_
  refine iteInduction (fun h => word_of_xyn h rfl) fun hD => ?_
  refine iteInduction (fun h => decodeE_fits h) fun hE => ?_
  exact decodeF_fits (by bv_omega)

/-- The decoder answers an instruction for that instruction's word and for no other. -/
theorem decodeWord_eq_instr_iff {w : Word} {insn : Instr} : decodeWord w = .instr insn ↔ encode insn = w := by
  constructor
  · intro h
    have hfits := decodeWord_fits w
    rwa [h] at hfits
  · rintro rfl
    exact decodeWord_encode insn

/-- Settles O6: an instruction that fits the word has it as its word. -/
theorem encodeOfDecodeIsTheWord : Obligations.EncodeOfDecodeIsTheWord := by
  unfold Obligations.EncodeOfDecodeIsTheWord
  intro w insn h
  exact decodeWord_eq_instr_iff.mp h

/-! ### The unknown words (R98, R99) -/

/-- One branch of a family's tree. -/
theorem ite_instr_eq_unknown {c : Prop} [Decidable c] {insn : Instr} {d : Decoded} {f : UnknownFamily} :
    (if c then .instr insn else d) = Decoded.unknown f ↔ ¬c ∧ d = .unknown f := by
  by_cases hc : c <;> simp [hc]

theorem decode0_eq_unknown {w : Word} :
    decode0 w = .unknown .family0 ↔ w.toNat ≠ 0x00E0 ∧ w.toNat ≠ 0x00EE := by
  simp only [decode0, ite_instr_eq_unknown, and_true]
  bv_omega

theorem decode8_eq_unknown {x y : Reg} {n : Nibble} :
    decode8 x y n = .unknown .family8 ↔ 8 ≤ n.toNat ∧ n.toNat ≤ 0xD ∨ n.toNat = 0xF := by
  simp only [decode8, ite_instr_eq_unknown, and_true]
  bv_omega

theorem decodeE_eq_unknown {x : Reg} {nn : Byte} :
    decodeE x nn = .unknown .familyE ↔ nn.toNat ≠ 0x9E ∧ nn.toNat ≠ 0xA1 := by
  simp only [decodeE, ite_instr_eq_unknown, and_true]
  bv_omega

theorem decodeF_eq_unknown {x : Reg} {nn : Byte} :
    decodeF x nn = .unknown .familyF ↔ nn.toNat ∉ [0x07, 0x0A, 0x15, 0x18, 0x1E, 0x29, 0x33, 0x55, 0x65] := by
  simp only [decodeF, ite_instr_eq_unknown, and_true, List.mem_cons, List.not_mem_nil, or_false]
  bv_omega

/-- The form of families 5 and 9 (R99). -/
theorem ite_nibble_eq_unknown {n : Nibble} {insn : Instr} {f : UnknownFamily} :
    (if n = 0x0#4 then .instr insn else .unknown f) = Decoded.unknown f ↔ n.toNat ≠ 0 := by
  simp only [ite_instr_eq_unknown, and_true]
  bv_omega

/-- A word is unknown in a family when its major nibble leads there and the family does not know it. -/
theorem decodeWord_eq_unknown_iff {w : Word} {f : UnknownFamily} {d : Decoded} {P : Prop}
    (hfamily : fieldOp w = f.op → decodeWord w = d) (hd : d = .unknown f ↔ P) :
    decodeWord w = .unknown f ↔ w.toNat / 4096 = f.op.toNat ∧ P := by
  have hop : fieldOp w = f.op ↔ w.toNat / 4096 = f.op.toNat := by
    have := w.isLt
    rw [bv_eq_iff, toNat_fieldOp]; omega
  rw [← hop]
  constructor
  · intro h
    have hfits := decodeWord_fits w
    rw [h] at hfits
    exact ⟨hfits, hd.mp ((hfamily hfits).symm.trans h)⟩
  · rintro ⟨hf, hP⟩
    exact (hfamily hf).trans (hd.mpr hP)

/-- Settles O7: each family is reached by its major nibble alone, and what it does not know is its row of the table of R98. -/
theorem unknownWordsAreThoseOfTheTable : Obligations.UnknownWordsAreThoseOfTheTable := by
  unfold Obligations.UnknownWordsAreThoseOfTheTable
  intro w
  rw [← toNat_fieldN w, ← toNat_fieldNN w]
  exact ⟨decodeWord_eq_unknown_iff decodeWord_op0 decode0_eq_unknown,
    decodeWord_eq_unknown_iff decodeWord_op5 ite_nibble_eq_unknown,
    decodeWord_eq_unknown_iff decodeWord_op8 decode8_eq_unknown,
    decodeWord_eq_unknown_iff decodeWord_op9 ite_nibble_eq_unknown,
    decodeWord_eq_unknown_iff decodeWord_opE decodeE_eq_unknown,
    decodeWord_eq_unknown_iff decodeWord_opF decodeF_eq_unknown⟩

/-! ### The opcode table (R93, R103) -/

theorem row_matches_encode (insn : Instr) : insn.row.matches (encode insn) = true := by
  cases insn with
  | cls | ret => exact Laws.TableRow.of_mask rfl
  | jp nnn | call nnn | ldI nnn | jpV0 nnn => exact Laws.TableRow.of_mask (Laws.TableRow.mask_nnn _ nnn)
  | seImm x nn | sneImm x nn | ldImm x nn | addImm x nn | rnd x nn =>
    exact Laws.TableRow.of_mask (Laws.TableRow.mask_xnn _ x nn)
  | drw x y n => exact Laws.TableRow.drw x y n
  | seReg x y | ldReg x y | orReg x y | andReg x y | xorReg x y | addReg x y | subReg x y | shr x y | subn x y
  | shl x y | sneReg x y => exact Laws.TableRow.of_mask (Laws.TableRow.mask_xy _ x y _)
  | skp x | sknp x | ldVxDT x | ldVxK x | ldDTVx x | ldSTVx x | addI x | ldF x | ldB x | ldStore x | ldLoad x =>
    exact Laws.TableRow.of_mask (Laws.TableRow.mask_x _ x _)

/-- Two words of a row agree in every field that the row's mask covers. -/
theorem extract_eq_of_matches {r : OpRow} {w w' : Word} (start len : Nat)
    (h : r.matches w = true) (h' : r.matches w' = true) (hmask : r.mask.extractLsb' start len = BitVec.allOnes len) :
    w.extractLsb' start len = w'.extractLsb' start len := by
  have hsame : w &&& r.mask = w' &&& r.mask := (eq_of_beq h).trans (eq_of_beq h').symm
  simpa only [BitVec.extractLsb'_and, hmask, BitVec.and_allOnes] using
    congrArg (fun v => v.extractLsb' start len) hsame

theorem row_mask_op (insn : Instr) : fieldOp insn.row.mask = 0xF := by
  cases insn <;> simp [Instr.row, fieldOp]

/-- The fields that the mask covers are those of the row's own instruction, and they alone choose the branch of the decode tree. -/
theorem decodeWord_of_row_matches {w : Word} {insn : Instr} (h : insn.row.matches w = true) :
    ∃ other : Instr, decodeWord w = .instr other ∧ other.row = insn.row := by
  have hown := row_matches_encode insn
  have hop : fieldOp w = fieldOp (encode insn) := extract_eq_of_matches 12 4 h hown (row_mask_op insn)
  have hn (hmask : fieldN insn.row.mask = 0xF) : fieldN w = fieldN (encode insn) :=
    extract_eq_of_matches 0 4 h hown hmask
  have hnn (hmask : fieldNN insn.row.mask = 0xFF) : fieldNN w = fieldNN (encode insn) :=
    extract_eq_of_matches 0 8 h hown hmask
  have hword (hmask : insn.row.mask = 0xFFFF) : encode insn = w := by
    simpa using extract_eq_of_matches 0 16 hown h (hmask ▸ rfl)
  cases insn with
  | cls | ret => exact ⟨_, decodeWord_eq_instr_iff.mpr (hword rfl), rfl⟩
  | jp | call | ldI | jpV0 | seImm | sneImm | ldImm | addImm | rnd | drw =>
    simp [hop, encode]
    rfl
  | seReg | sneReg =>
    have hn := hn (show fieldN 0xF00F = 0xF by decide)
    simp [hop, hn, encode]
    rfl
  | ldReg | orReg | andReg | xorReg | addReg | subReg | shr | subn | shl =>
    have hn := hn (show fieldN 0xF00F = 0xF by decide)
    simp [hop, hn, encode, decode8]
    rfl
  | skp | sknp =>
    have hnn := hnn (show fieldNN 0xF0FF = 0xFF by decide)
    simp [hop, hnn, encode, decodeE]
    rfl
  | ldVxDT | ldVxK | ldDTVx | ldSTVx | addI | ldF | ldB | ldStore | ldLoad =>
    have hnn := hnn (show fieldNN 0xF0FF = 0xFF by decide)
    simp [hop, hnn, encode, decodeF]
    rfl

/-- Settles O8: a decoded word is the instruction's own (`decodeWord_eq_instr_iff`), which lies in its row; a word of a row shares with it the fields that decide the decoding. -/
theorem decoderAgreesWithTheOpcodeTable : Obligations.DecoderAgreesWithTheOpcodeTable := by
  unfold Obligations.DecoderAgreesWithTheOpcodeTable
  intro w insn
  refine ⟨fun h => ?_, decodeWord_of_row_matches⟩
  rw [← decodeWord_eq_instr_iff.mp h]
  exact row_matches_encode insn

/-- Settles O4: nine closed words, decoded by evaluation. -/
theorem specWordsDecodeAsTheSpecSays : Obligations.SpecWordsDecodeAsTheSpecSays := by
  unfold Obligations.SpecWordsDecodeAsTheSpecSays
  decide

end Sys2Proof
end

section
/-! The fire of the instruction clock on a decoded word, on an unknown word and on a placed word (20_memory.md R66; 30_encoding.md R90, R101). -/

namespace Sys2Proof.Machine

/-! ### Fires on a fetched word -/

/-- A fire on a word that decodes to an instruction (R90, R255, R261). -/
theorem step_of_instr {s : State} {w : Word} {insn : Instr} (hrun : s.halted = false)
    (hclock : s.input.clock = .instruction) (hfetch : s.fetch16 s.pc = some w) (hdec : decodeWord w = .instr insn) :
    step s = onNext State.nextInput (exec insn (s.advanceInsnClock.setPc (s.pc + 2))) := by
  have hfetch' : s.advanceInsnClock.fetch16 s.advanceInsnClock.pc = some w := hfetch
  rw [step_instruction hrun hclock, engineStep_instr hfetch' hdec, State.advanceInsnClock_pc]

/-- A fire on an unknown word (R98, R255, R261). -/
theorem step_of_unknown {s : State} {w : Word} {f : UnknownFamily} (hrun : s.halted = false)
    (hclock : s.input.clock = .instruction) (hfetch : s.fetch16 s.pc = some w) (hdec : decodeWord w = .unknown f) :
    step s = .next (s.advanceInsnClock.setPc (s.pc + 2)).nextInput := by
  have hfetch' : s.advanceInsnClock.fetch16 s.advanceInsnClock.pc = some w := hfetch
  rw [step_instruction hrun hclock, engineStep_unknown hfetch' hdec, onNext_next, State.advanceInsnClock_pc]

/-- Settles O9: the two bytes at `pc` are the fetched word. -/
theorem stepRunsTheDecodedInstruction : Obligations.StepRunsTheDecodedInstruction := by
  unfold Obligations.StepRunsTheDecodedInstruction
  intro s insn hrun hclock hpc _ hdec
  exact step_of_instr hrun hclock (State.fetch16_of_fits hpc) hdec

/-- Settles O10: the engine step writes `pc` alone, and the fire around it clocks and environment. -/
theorem unknownWordIsANoOp : Obligations.UnknownWordIsANoOp := by
  unfold Obligations.UnknownWordIsANoOp
  intro s f hrun hclock hpc hdec
  have hframe := (keepsAllBut_pc s.advanceInsnClock (s.pc + 2)).mono (qs := [.pc, .clocks, .environment]) (by simp)
  exact ⟨_, step_of_unknown hrun hclock (State.fetch16_of_fits hpc) hdec, by simp,
    hframe.around_engineStep (by simp) (by simp)⟩

/-! ### A placed word (log 20) -/

theorem decodeTableWord_eq_some {nbits w : Nat} {insn : Instr} :
    decodeTableWord nbits w = some insn ↔ decodeWord (tableWord nbits w) = .instr insn := by
  rw [decodeTableWord, decodeBytes_of_word]
  cases decodeWord (tableWord nbits w) <;> simp

theorem State.placeWord_pc_of_fits {s : State} {w : Word} (h : s.pc.toNat + 2 ≤ 4096) :
    (s.placeWord w).pc = s.pc := by
  simp [State.placeWord, inRange, h]

/-- Two bytes can be fetched where the word is placed: at `pc`, or else at the entry point. -/
theorem State.placeWord_pc_fits (s : State) (w : Word) : (s.placeWord w).pc.toNat + 2 ≤ 4096 := by
  by_cases h : s.pc.toNat + 2 ≤ 4096
  · rwa [State.placeWord_pc_of_fits h]
  · simp [State.placeWord, inRange, h]

theorem State.placeWord_mem (s : State) (w : Word) :
    (s.placeWord w).mem = s.mem.writeBlock (s.placeWord w).pc.toNat [highByte w, lowByte w] := rfl

/-- The fetch after placing a word reads that word (R66). -/
theorem State.fetch16_placeWord (s : State) (w : Word) :
    (s.placeWord w).fetch16 (s.placeWord w).pc = some w := by
  rw [State.fetch16_of_fits (s.placeWord_pc_fits w), State.placeWord_mem, Memory.read_writeBlock,
    Memory.read_writeBlock]
  simpa [wordOfBytes] using wordOfBytes_bytes w

theorem State.placeWord_keepsMemoryBut {s : State} {w : Word} (h : s.pc.toNat + 2 ≤ 4096) :
    KeepsMemoryBut s.pc.toNat 2 s (s.placeWord w) := by
  intro b hb
  rw [State.placeWord_mem, State.placeWord_pc_of_fits h, Memory.read_writeBlock, if_neg (by simp; omega)]

/-- Placing a word and fetching it write no other part of the state. -/
theorem State.placeWord_fetched_keepsAllBut (s : State) (w a : Word) :
    KeepsAllBut [.pc, .memory, .status, .clocks, .environment] s ((s.placeWord w).advanceInsnClock.setPc a) := by
  intro p hp
  cases p <;> simp [Part.same, State.placeWord, State.getV] at hp ⊢

/-- Settles O12: the word fetched is the one placed (`State.fetch16_placeWord`), so its instruction runs, in the state that placing and fetching leave. -/
theorem placedWordIsTheNextInstruction : Obligations.PlacedWordIsTheNextInstruction := by
  unfold Obligations.PlacedWordIsTheNextInstruction
  intro s w insn hdec
  refine ⟨_, step_of_instr (s := s.placeWord _) rfl rfl (s.fetch16_placeWord _) (decodeTableWord_eq_some.mp hdec),
    s.placeWord_fetched_keepsAllBut _ _, rfl, fun hpc => ⟨?_, State.placeWord_keepsMemoryBut hpc⟩⟩
  rw [State.setPc_pc, State.placeWord_pc_of_fits hpc]

end Sys2Proof.Machine
end

section
/-! Control transfer: CLS, RET, JP, CALL and JP V0, and the block that stays at a jump to its own address (40_flow.md R120 to R124; 60_exceptions.md R270). -/

namespace Sys2Proof.Machine

/-! ### Words, faults and cells -/

/-- An instruction and its encoding determine each other (R93 to R97). -/
theorem isWordOf_encode (insn : Instr) : IsWordOf (encode insn) insn := ⟨rfl, decodeWord_encode insn⟩

/-- An instruction whose whole effect is a raised fault (R241 to R243). -/
theorem faultsWith_of_raiseIn {insn : Instr} {s : State} {cause : FaultCause} {addr : Word} {len : Nat}
    (he : exec insn s = .next (s.raiseIn insn cause addr len)) : FaultsWith insn s cause addr len :=
  ⟨_, he, rfl, rfl, keepsAllBut_status s insn cause addr len⟩

/-- Every cell of the cleared plane is unlit (R191). -/
theorem cell_zero (g : Geometry) (x y : Nat) : cell g 0 x y = false := BitVec.getLsbD_zero

/-! ### The instructions -/

theorem exec_cls (s : State) : exec .cls s = .next s.planeClear := rfl

theorem exec_ret_of_empty {s : State} (h : s.stack = []) : exec .ret s = .next s := by
  rw [exec, execRet, State.popToPc_nil h]

theorem exec_ret_of_concat {s : State} {below : List Word} {top : Word} (h : s.stack = below ++ [top]) :
    exec .ret s = .next { s with stack := below, pc := top } := by
  rw [exec, execRet, State.popToPc_concat h]

theorem exec_jp (nnn : Addr) (s : State) : exec (.jp nnn) s = .next (s.setPc (zextAddr nnn)) := rfl

theorem exec_jpV0 (nnn : Addr) (s : State) : exec (.jpV0 nnn) s = .next (s.setPc (jumpV0Target s nnn)) := rfl

/-- The sum of a 12-bit and an 8-bit number fits in `pc`, so it never wraps (R124). -/
theorem jumpV0Target_toNat (s : State) (nnn : Addr) :
    (jumpV0Target s nnn).toNat = nnn.toNat + (s.getV 0).toNat := by
  have h1 := nnn.isLt
  have h2 := (s.getV 0).isLt
  rw [jumpV0Target, BitVec.toNat_add, zextAddr_toNat, BitVec.toNat_setWidth]
  omega

/-- Settles O17: CLS is the cleared plane of `exec_cls`, whose every cell is unlit. -/
theorem clsClearsEveryCellAndMarksDirty : Obligations.ClsClearsEveryCellAndMarksDirty := by
  unfold Obligations.ClsClearsEveryCellAndMarksDirty
  intro s
  exact ⟨isWordOf_encode .cls, _, exec_cls s, fun x y _ => cell_zero s.cfg.geometry x y, s.planeClear_dirty,
    keepsAllBut_plane_dirty s⟩

/-- Settles O18: RET leaves a state with an empty stack as it is, and else moves the top entry to `pc`. -/
theorem retPopsOrDoesNothing : Obligations.RetPopsOrDoesNothing := by
  unfold Obligations.RetPopsOrDoesNothing
  refine fun s => ⟨isWordOf_encode .ret, fun hempty => ?_, fun below top hstack => ?_⟩
  · exact ⟨s, exec_ret_of_empty hempty, rfl, .refl _ s⟩
  · exact ⟨_, exec_ret_of_concat hstack, rfl, rfl, keepsAllBut_pc_stack s top below⟩

/-- Settles O20: with room on the stack CALL pushes `pc` and jumps, and at `STACK_DEPTH` entries it raises the fault alone. -/
theorem callPushesTheReturnAddressOrOverflows : Obligations.CallPushesTheReturnAddressOrOverflows := by
  unfold Obligations.CallPushesTheReturnAddressOrOverflows
  refine fun nnn s => ⟨isWordOf_encode (.call nnn), fun hroom => ?_, fun hfull => ?_⟩
  · exact ⟨_, exec_call_of_room hroom, s.push_stack s.pc, zextAddr_toNat nnn, keepsAllBut_pc_stack s _ _⟩
  · exact faultsWith_of_raiseIn (exec_call_of_full hfull.ge)

/-- Settles O21: the target as a number is the exact sum. -/
theorem jpV0AddsV0WithoutMask : Obligations.JpV0AddsV0WithoutMask := by
  unfold Obligations.JpV0AddsV0WithoutMask
  intro nnn s
  exact ⟨isWordOf_encode (.jpV0 nnn), _, exec_jpV0 nnn s, jumpV0Target_toNat s nnn, keepsAllBut_pc s _⟩

/-! ### A jump to its own address -/

/-- The jump puts back the `pc` that the fetch moved, so only what a fire does around the engine step is left (R122). -/
theorem step_of_selfJump {s : State} {nnn : Addr} (hrun : s.halted = false) (hclock : s.input.clock = .instruction)
    (hpc : s.pc = zextAddr nnn) (hfetch : s.fetch16 s.pc = some (0x1#4 ++ nnn)) :
    step s = .next s.advanceInsnClock.nextInput := by
  rw [step_of_instr hrun hclock hfetch (decodeWord_encode (.jp nnn)), exec_jp, ← hpc]
  rfl

/-- A fire of the instruction clock around an engine step that changes nothing (R255, R261). -/
theorem State.advanceInsnClock_nextInput_keepsAllBut (s : State) :
    KeepsAllBut [.clocks, .environment] s s.advanceInsnClock.nextInput :=
  (KeepsAllBut.refl _ s.advanceInsnClock).around_engineStep (by simp) (by simp)

/-- What a fire of the frame clock may write (R252, R255, R261). -/
theorem frameFire_keepsAllBut (s : State) :
    KeepsAllBut [.delay, .sound, .dirty, .presents, .clocks, .environment] s
      (frameStep s.advanceFrameClock).nextInput := by
  rw [frameStep_eq]
  intro p hp
  cases p <;> simp [Part.same, State.getV] at hp ⊢

/-- The fetch depends on the bytes of memory alone (R66). -/
theorem State.fetch16_congr {s t : State} (h : Part.memory.same s t) (a : Word) : t.fetch16 a = s.fetch16 a := by
  have hread (b : Nat) : t.mem.read b = s.mem.read b := h b
  rw [State.fetch16, State.fetch16, hread, hread]

/-- Whatever keeps `pc` and memory leaves the block at its self-jump. -/
theorem AtSelfJump.of_keepsAllBut {ps : List Part} {s t : State} (hself : AtSelfJump s) (h : KeepsAllBut ps s t)
    (hpc : .pc ∉ ps) (hmem : .memory ∉ ps) : AtSelfJump t := by
  obtain ⟨nnn, haddr, hfetch⟩ := hself
  have hsame : t.pc = s.pc := h .pc hpc
  refine ⟨nnn, hsame.trans haddr, ?_⟩
  rw [State.fetch16_congr (h .memory hmem), hsame, hfetch]

/-- Settles O19: JP writes `pc` alone, and at its own address that write undoes the fetch (`step_of_selfJump`). -/
theorem jpSetsPc : Obligations.JpSetsPc := by
  unfold Obligations.JpSetsPc
  refine fun nnn s => ⟨isWordOf_encode (.jp nnn), ⟨_, exec_jp nnn s, zextAddr_toNat nnn, keepsAllBut_pc s _⟩, ?_⟩
  exact fun hrun hclock hpc hfetch =>
    ⟨_, step_of_selfJump hrun hclock hpc hfetch, s.advanceInsnClock_nextInput_keepsAllBut⟩

/-- Settles O56: the frames of both fires keep `pc`, memory and the fault status, and with them the self-jump. -/
theorem selfJumpIsAFixedPoint : Obligations.SelfJumpIsAFixedPoint := by
  unfold Obligations.SelfJumpIsAFixedPoint
  intro s hrun hself
  cases hclock : s.input.clock with
  | instruction =>
    have ⟨nnn, hpc, hfetch⟩ := hself
    have hframe := s.advanceInsnClock_nextInput_keepsAllBut
    exact ⟨_, step_of_selfJump hrun hclock hpc hfetch, (hframe .status (by simp)).1.trans hrun,
      hself.of_keepsAllBut hframe (by simp) (by simp), fun _ => hframe, nofun⟩
  | frame =>
    have hframe := frameFire_keepsAllBut s
    exact ⟨_, step_frame hrun hclock, (hframe .status (by simp)).1.trans hrun,
      hself.of_keepsAllBut hframe (by simp) (by simp), nofun, fun _ => hframe⟩

end Sys2Proof.Machine
end

section
/-! Conditional skips: SE and SNE with a byte and with a register (41_skips.md R140 to R143). -/

namespace Sys2Proof.Machine

/-! ### The shared skip (R10) -/

/-- An instruction that is `skipIf` of a test skips when what it tests holds. -/
theorem skipsWhen_of_skipIf {insn : Instr} {s : State} {b : Bool} {c : Prop}
    (he : exec insn s = .next (s.skipIf b)) (htest : b = true ↔ c) : SkipsWhen insn s c := by
  constructor
  · intro hc
    rw [htest.mpr hc, State.skipIf_true] at he
    exact ⟨_, he, s.setPc_pc _, keepsAllBut_pc s _⟩
  · intro hc
    rw [Bool.eq_false_iff.mpr (mt htest.mp hc), State.skipIf_false] at he
    exact ⟨s, he, rfl, .refl _ s⟩

/-! ### The instructions -/

theorem exec_seImm (x : Reg) (nn : Byte) (s : State) :
    exec (.seImm x nn) s = .next (s.skipIf (s.getV x == nn)) := rfl

theorem exec_sneImm (x : Reg) (nn : Byte) (s : State) :
    exec (.sneImm x nn) s = .next (s.skipIf (s.getV x != nn)) := rfl

theorem exec_seReg (x y : Reg) (s : State) :
    exec (.seReg x y) s = .next (s.skipIf (s.getV x == s.getV y)) := rfl

theorem exec_sneReg (x y : Reg) (s : State) :
    exec (.sneReg x y) s = .next (s.skipIf (s.getV x != s.getV y)) := rfl

/-- Settles O23: both instructions are `skipIf` of a comparison with the immediate byte. -/
theorem immediateSkipsCompareWithTheByte : Obligations.ImmediateSkipsCompareWithTheByte := by
  unfold Obligations.ImmediateSkipsCompareWithTheByte
  intro x nn s
  exact ⟨isWordOf_encode (.seImm x nn), skipsWhen_of_skipIf (exec_seImm x nn s) beq_iff_eq,
    isWordOf_encode (.sneImm x nn), skipsWhen_of_skipIf (exec_sneImm x nn s) bne_iff_ne⟩

/-! ### The words with a nonzero last nibble (R99) -/

theorem decodeWord_family5_of_ne_zero (x y : Reg) {n : Nibble} (hn : n ≠ 0x0#4) :
    decodeWord (0x5#4 ++ x ++ y ++ n) = .unknown .family5 := by
  rw [decodeWord_op5 (fieldOp_xyn _ x y n), fieldN_xyn, if_neg hn]

theorem decodeWord_family9_of_ne_zero (x y : Reg) {n : Nibble} (hn : n ≠ 0x0#4) :
    decodeWord (0x9#4 ++ x ++ y ++ n) = .unknown .family9 := by
  rw [decodeWord_op9 (fieldOp_xyn _ x y n), fieldN_xyn, if_neg hn]

/-- Settles O24: both instructions are `skipIf` of a comparison of the two registers, and families 5 and 9 know no word but those with `n = 0`. -/
theorem registerSkipsCompareTwoRegisters : Obligations.RegisterSkipsCompareTwoRegisters := by
  unfold Obligations.RegisterSkipsCompareTwoRegisters
  intro x y s
  exact ⟨isWordOf_encode (.seReg x y), skipsWhen_of_skipIf (exec_seReg x y s) beq_iff_eq,
    isWordOf_encode (.sneReg x y), skipsWhen_of_skipIf (exec_sneReg x y s) bne_iff_ne,
    fun _ hn => ⟨decodeWord_family5_of_ne_zero x y hn, decodeWord_family9_of_ne_zero x y hn⟩⟩

end Sys2Proof.Machine
end

section
/-! Register assignment and arithmetic: LD, ADD, OR, AND, XOR, SUB, SUBN, SHR and SHL on the registers (42_alu.md R150 to R160). -/

namespace Sys2Proof.Machine

/-! ### The two shapes of an effect on the registers (R20, R21) -/

/-- An instruction that is one register write writes that register alone. -/
theorem writesReg_of_setV {insn : Instr} {s : State} {x : Reg} {b : Byte} (he : exec insn s = .next (s.setV x b)) :
    WritesReg insn s x b :=
  ⟨_, he, by rw [State.getV_setV, if_pos rfl], s.setV_keepsRegsBut x b, keepsAllBut_regs s _⟩

/-- The flag byte is 1 or 0 as the condition that was computed holds or not (R21). -/
theorem flagByte_of_iff {f : Bool} {c : Prop} (hf : f = true ↔ c) :
    (c ∧ flagByte f = 1) ∨ (¬c ∧ flagByte f = 0) := by
  cases f with
  | true => exact .inl ⟨hf.mp rfl, rfl⟩
  | false => exact .inr ⟨mt hf.mpr nofun, rfl⟩

/-- An instruction that is a register write with a flag writes that register and VF alone, and VF holds the flag also when `x = 15` (D13). -/
theorem writesRegAndFlag_of_setVWithFlag {insn : Instr} {s : State} {x : Reg} {b : Byte} {f : Bool} {c : Prop}
    (he : exec insn s = .next (s.setVWithFlag x b f)) (hf : f = true ↔ c) : WritesRegAndFlag insn s x b c := by
  refine ⟨_, he, ?_, fun hx => ?_, s.setVWithFlag_keepsRegsBut x b f, keepsAllBut_regs s _⟩
  · rw [State.getV_setVWithFlag, if_pos rfl]
    exact flagByte_of_iff hf
  · rw [State.getV_setVWithFlag, if_neg hx, if_pos rfl]

/-! ### Bytes as numbers modulo 256 -/

theorem byte_add_eq (a b : Byte) : a + b = BitVec.ofNat 8 ((a.toNat + b.toNat) % 256) := by
  apply BitVec.eq_of_toNat_eq
  rw [BitVec.toNat_add, BitVec.toNat_ofNat, Nat.mod_mod]

theorem byte_sub_eq (a b : Byte) : a - b = BitVec.ofNat 8 ((256 + a.toNat - b.toNat) % 256) := by
  have hb := b.isLt
  apply BitVec.eq_of_toNat_eq
  rw [BitVec.toNat_sub, BitVec.toNat_ofNat]
  omega

theorem byte_shiftRight_one_eq (a : Byte) : a >>> 1 = BitVec.ofNat 8 (a.toNat / 2) := by
  have ha := a.isLt
  apply BitVec.eq_of_toNat_eq
  rw [BitVec.toNat_ushiftRight, BitVec.toNat_ofNat, Nat.shiftRight_eq_div_pow]
  omega

theorem byte_shiftLeft_one_eq (a : Byte) : a <<< 1 = BitVec.ofNat 8 (a.toNat * 2 % 256) := by
  apply BitVec.eq_of_toNat_eq
  rw [BitVec.toNat_shiftLeft, BitVec.toNat_ofNat, Nat.shiftLeft_eq]
  omega

/-! ### The flags (R157 to R160) -/

theorem noBorrow_iff (a b : Byte) : noBorrow a b = true ↔ b.toNat ≤ a.toNat := decide_eq_true_iff

theorem shiftedOutRight_iff (a : Byte) : shiftedOutRight a = true ↔ a.toNat % 2 = 1 := by
  rw [shiftedOutRight, BitVec.getLsbD, Nat.testBit_zero, decide_eq_true_iff]

theorem shiftedOutLeft_iff (a : Byte) : shiftedOutLeft a = true ↔ 128 ≤ a.toNat := by
  have ha := a.isLt
  rw [shiftedOutLeft, BitVec.getLsbD, Nat.testBit_eq_decide_div_mod_eq, decide_eq_true_iff]
  omega

/-! ### The instructions -/

theorem exec_ldImm (x : Reg) (nn : Byte) (s : State) : exec (.ldImm x nn) s = .next (s.setV x nn) := rfl

theorem exec_ldReg (x y : Reg) (s : State) : exec (.ldReg x y) s = .next (s.setV x (s.getV y)) := rfl

theorem exec_orReg (x y : Reg) (s : State) :
    exec (.orReg x y) s = .next (s.setV x (s.getV x ||| s.getV y)) := rfl

theorem exec_andReg (x y : Reg) (s : State) :
    exec (.andReg x y) s = .next (s.setV x (s.getV x &&& s.getV y)) := rfl

theorem exec_xorReg (x y : Reg) (s : State) :
    exec (.xorReg x y) s = .next (s.setV x (s.getV x ^^^ s.getV y)) := rfl

theorem exec_addImm (x : Reg) (nn : Byte) (s : State) :
    exec (.addImm x nn) s = .next (s.setV x (s.getV x + nn)) := rfl

theorem exec_addReg (x y : Reg) (s : State) :
    exec (.addReg x y) s = .next (s.setV x (s.getV x + s.getV y)) := rfl

theorem exec_subReg (x y : Reg) (s : State) :
    exec (.subReg x y) s =
      .next (s.setVWithFlag x (s.getV x - s.getV y) (noBorrow (s.getV x) (s.getV y))) := rfl

theorem exec_subn (x y : Reg) (s : State) :
    exec (.subn x y) s =
      .next (s.setVWithFlag x (s.getV y - s.getV x) (noBorrow (s.getV y) (s.getV x))) := rfl

theorem exec_shr (x y : Reg) (s : State) :
    exec (.shr x y) s =
      .next (s.setVWithFlag x (shiftSource s x y >>> 1) (shiftedOutRight (shiftSource s x y))) := rfl

theorem exec_shl (x y : Reg) (s : State) :
    exec (.shl x y) s =
      .next (s.setVWithFlag x (shiftSource s x y <<< 1) (shiftedOutLeft (shiftSource s x y))) := rfl

/-- The source of a shift under each setting of `SHIFT_IN_PLACE` (R8). -/
theorem eq_shiftSource_toNat {s : State} {x y : Reg} {v : Nat}
    (hv : s.cfg.shiftInPlace = true ∧ v = (s.getV x).toNat ∨ s.cfg.shiftInPlace = false ∧ v = (s.getV y).toNat) :
    v = (shiftSource s x y).toNat := by
  rcases hv with ⟨hquirk, rfl⟩ | ⟨hquirk, rfl⟩ <;> simp [shiftSource, hquirk]

/-- Settles O26: both sums are one register write of the sum modulo 256 (`byte_add_eq`). -/
theorem addsWrapAndWriteNoFlag : Obligations.AddsWrapAndWriteNoFlag := by
  unfold Obligations.AddsWrapAndWriteNoFlag
  intro x y nn s
  rw [← byte_add_eq, ← byte_add_eq]
  exact ⟨isWordOf_encode (.addImm x nn), writesReg_of_setV (exec_addImm x nn s),
    isWordOf_encode (.addReg x y), writesReg_of_setV (exec_addReg x y s)⟩

/-- Settles O28: both differences are a register write modulo 256 (`byte_sub_eq`) whose flag compares the old values. -/
theorem subtractsSetVFWhenNoBorrow : Obligations.SubtractsSetVFWhenNoBorrow := by
  unfold Obligations.SubtractsSetVFWhenNoBorrow
  intro x y s
  rw [← byte_sub_eq, ← byte_sub_eq]
  exact ⟨isWordOf_encode (.subReg x y), writesRegAndFlag_of_setVWithFlag (exec_subReg x y s) (noBorrow_iff _ _),
    isWordOf_encode (.subn x y), writesRegAndFlag_of_setVWithFlag (exec_subn x y s) (noBorrow_iff _ _)⟩

/-- Settles O29: under either quirk setting `v` is the shift's source, and both shifts write it shifted, with the bit shifted out as the flag. -/
theorem shiftsSetVFToTheBitShiftedOut : Obligations.ShiftsSetVFToTheBitShiftedOut := by
  unfold Obligations.ShiftsSetVFToTheBitShiftedOut
  intro x y s v hv
  rw [eq_shiftSource_toNat hv, ← byte_shiftRight_one_eq, ← byte_shiftLeft_one_eq]
  exact ⟨isWordOf_encode (.shr x y), writesRegAndFlag_of_setVWithFlag (exec_shr x y s) (shiftedOutRight_iff _),
    isWordOf_encode (.shl x y), writesRegAndFlag_of_setVWithFlag (exec_shl x y s) (shiftedOutLeft_iff _)⟩

/-- Settles O25: both loads are one register write. -/
theorem loadsWriteOneRegister : Obligations.LoadsWriteOneRegister := by
  unfold Obligations.LoadsWriteOneRegister
  intro x y nn s
  exact ⟨isWordOf_encode (.ldImm x nn), writesReg_of_setV (exec_ldImm x nn s),
    isWordOf_encode (.ldReg x y), writesReg_of_setV (exec_ldReg x y s)⟩

/-- Settles O27: the three bitwise operations are one register write each. -/
theorem bitwiseOperationsWriteNoFlag : Obligations.BitwiseOperationsWriteNoFlag := by
  unfold Obligations.BitwiseOperationsWriteNoFlag
  intro x y s
  exact ⟨isWordOf_encode (.orReg x y), writesReg_of_setV (exec_orReg x y s),
    isWordOf_encode (.andReg x y), writesReg_of_setV (exec_andReg x y s),
    isWordOf_encode (.xorReg x y), writesReg_of_setV (exec_xorReg x y s)⟩

end Sys2Proof.Machine
end

section
/-! Index register and random byte: LD I, ADD I, LD F and RND (43_index_random.md R180 to R182; 46_timers_bcd_font_block.md R224). -/

namespace Sys2Proof.Machine

/-! ### The new index (R181, R224) -/

/-- The highest glyph address, for the byte 0xFF, is 0x54B, so the address never wraps. -/
theorem glyphAddress_toNat (s : State) (x : Reg) :
    (glyphAddress s x).toNat = 0x050 + 5 * (s.getV x).toNat := by
  have hv := (s.getV x).isLt
  rw [glyphAddress, fontBase, glyphBytes, BitVec.toNat_ofNat]
  omega

theorem indexOverflow_iff (sum : Nat) : indexOverflow sum = true ↔ 0xFFF < sum := decide_eq_true_iff

/-! ### The instructions -/

theorem exec_ldI (nnn : Addr) (s : State) : exec (.ldI nnn) s = .next (s.setI (zextAddr nnn)) := rfl

theorem exec_ldF (x : Reg) (s : State) : exec (.ldF x) s = .next (s.setI (glyphAddress s x)) := rfl

theorem exec_addI (x : Reg) (s : State) :
    exec (.addI x) s =
      .next ((s.setI (BitVec.ofNat 16 (indexSum s x))).setFlag (indexOverflow (indexSum s x))) := rfl

theorem exec_rnd (x : Reg) (nn : Byte) (s : State) :
    exec (.rnd x nn) s = .next (s.setV x (s.input.rand &&& nn)) := rfl

/-- Settles O31: `I` is the exact sum cut to 16 bits, and the flag is the comparison of that sum before the cut. -/
theorem addISetsVFFromTheExactSum : Obligations.AddISetsVFFromTheExactSum := by
  unfold Obligations.AddISetsVFFromTheExactSum
  intro x s
  have hflag := flagByte_of_iff (indexOverflow_iff (indexSum s x))
  refine ⟨isWordOf_encode (.addI x), _, exec_addI x s, BitVec.toNat_ofNat _ 16, fun hover => ?_, fun hfits => ?_,
    (s.setI _).setFlag_keepsRegsBut _, keepsAllBut_regs_index s _ _⟩
  · rw [State.getV_setFlag, if_pos rfl]
    exact (hflag.resolve_right fun h => h.1 hover).2
  · rw [State.getV_setFlag, if_pos rfl]
    exact (hflag.resolve_left fun h => Nat.not_lt.mpr hfits h.1).2

/-- Settles O30: both loads are one write of `I`, and neither the zero extension nor the glyph address wraps. -/
theorem indexLoadsSetI : Obligations.IndexLoadsSetI := by
  unfold Obligations.IndexLoadsSetI
  intro nnn x s
  exact ⟨isWordOf_encode (.ldI nnn), ⟨_, exec_ldI nnn s, zextAddr_toNat nnn, keepsAllBut_index s _⟩,
    isWordOf_encode (.ldF x), _, exec_ldF x s, glyphAddress_toNat s x, keepsAllBut_index s _⟩

/-- Settles O32: RND is one register write of the masked byte that the random port shows, whatever that byte is. -/
theorem rndMasksAnyRandomByte : Obligations.RndMasksAnyRandomByte := by
  unfold Obligations.RndMasksAnyRandomByte
  intro x nn r s
  exact ⟨isWordOf_encode (.rnd x nn), writesReg_of_setV (exec_rnd x nn (s.withRand r)),
    writesReg_of_setV (exec_rnd x nn s)⟩

end Sys2Proof.Machine
end

section
/-! The display: where cells are stored, what DRW draws, and that a second identical draw undoes the first (10_state.md R28; 44_display.md R190 to R195; 90_conflicts.md C1). -/

namespace Sys2Proof.Machine

/-! ### The collision and the change of a sprite (R192, R193) -/

theorem drawSprite_hit_iff (g : Geometry) (p : Plane) (bs : List Byte) (xs ys : Byte) :
    (drawSprite g p bs xs ys).hit = true ↔
      ∃ x y, (InPlane g x y ∧ SpriteBit g bs xs ys x y) ∧ cell g p x y = true := by
  simpa [and_assoc] using (drew_drawSprite g p bs xs ys).hit

theorem drawSprite_changed_iff (g : Geometry) (p : Plane) (bs : List Byte) (xs ys : Byte) :
    (drawSprite g p bs xs ys).changed = true ↔ ∃ x y, InPlane g x y ∧ SpriteBit g bs xs ys x y := by
  simpa using (drew_drawSprite g p bs xs ys).changed

/-! ### A sprite as one XOR mask -/

/-- The drawing XORs one mask into the plane, whatever the plane holds: the cells and the bits outside them (log 17). -/
def XorsPlane (f : Drawing → Drawing) : Prop := ∃ mask : Plane, ∀ d, (f d).plane = d.plane ^^^ mask

theorem xorsPlane_id : XorsPlane fun d => d := ⟨0, fun _ => BitVec.xor_zero.symm⟩

theorem XorsPlane.trans {f h : Drawing → Drawing} (hf : XorsPlane f) (hh : XorsPlane h) : XorsPlane fun d => h (f d) := by
  obtain ⟨m, hm⟩ := hf
  obtain ⟨k, hk⟩ := hh
  exact ⟨m ^^^ k, fun d => by rw [hk, hm, BitVec.xor_assoc]⟩

theorem xorsPlane_ite {c : Prop} [Decidable c] {f h : Drawing → Drawing} (hf : XorsPlane f) (hh : XorsPlane h) :
    XorsPlane fun d => if c then f d else h d := by
  split <;> assumption

theorem xorsPlane_foldl {f : Drawing → Nat → Drawing} (hf : ∀ c, XorsPlane fun d => f d c) (cs : List Nat) :
    XorsPlane fun d => cs.foldl f d := by
  induction cs with
  | nil => exact xorsPlane_id
  | cons c cs ih => exact (hf c).trans ih

/-- A bit past the right edge is the empty mask, any other is its cell's bit. -/
theorem xorsPlane_drawBit (g : Geometry) (x y : Nat) : XorsPlane (drawBit g x y) :=
  xorsPlane_ite ⟨BitVec.twoPow 8192 (cellIndex g x y), fun _ => rfl⟩ xorsPlane_id

theorem xorsPlane_drawRow (g : Geometry) (b : Byte) (x0 y : Nat) : XorsPlane (drawRow g b x0 y) :=
  xorsPlane_foldl (fun c => xorsPlane_ite (xorsPlane_drawBit g (x0 + c) y) xorsPlane_id) _

theorem xorsPlane_drawRows (g : Geometry) (x0 : Nat) (bs : List Byte) (y : Nat) :
    XorsPlane (drawRows g x0 bs y) := by
  induction bs generalizing y with
  | nil => exact xorsPlane_id
  | cons b bs ih => exact xorsPlane_ite xorsPlane_id ((xorsPlane_drawRow g b x0 y).trans (ih (y + 1)))

theorem drawSprite_drawSprite_plane (g : Geometry) (p : Plane) (bs : List Byte) (xs ys : Byte) :
    (drawSprite g (drawSprite g p bs xs ys).plane bs xs ys).plane = p := by
  obtain ⟨mask, hmask⟩ := xorsPlane_drawRows g (xs.toNat % planeWidth g) bs (ys.toNat % planeHeight g)
  have hdraw (q : Plane) : (drawSprite g q bs xs ys).plane = q ^^^ mask := hmask _
  rw [hdraw, hdraw, BitVec.xor_assoc, BitVec.xor_self, BitVec.xor_zero]

/-! ### A sprite on the blank plane -/

theorem drawSprite_zero_hit (g : Geometry) (bs : List Byte) (xs ys : Byte) :
    (drawSprite g 0 bs xs ys).hit = false := by
  rw [Bool.eq_false_iff, ne_eq, drawSprite_hit_iff]
  rintro ⟨x, y, -, hlit⟩
  exact Bool.eq_false_iff.mp (cell_zero g x y) hlit

/-- After a draw on the blank plane exactly the drawn cells are lit, so the second draw hits each of them. -/
theorem drawSprite_drawSprite_zero_hit (g : Geometry) (bs : List Byte) (xs ys : Byte) :
    (drawSprite g (drawSprite g 0 bs xs ys).plane bs xs ys).hit = (drawSprite g 0 bs xs ys).changed := by
  have hlit {x y : Nat} (h : InPlane g x y ∧ SpriteBit g bs xs ys x y) :
      cell g (drawSprite g 0 bs xs ys).plane x y = true := by
    rw [(drew_drawSprite g 0 bs xs ys).toggled x y h.1 h.2, cell_zero, Bool.not_false]
  rw [Bool.eq_iff_iff, drawSprite_hit_iff, drawSprite_changed_iff]
  constructor
  · rintro ⟨x, y, hdrawn, -⟩
    exact ⟨x, y, hdrawn⟩
  · rintro ⟨x, y, hdrawn⟩
    exact ⟨x, y, hdrawn, hlit hdrawn⟩

/-- Settles O34: two XORs with one mask cancel, and the blank plane is lit after the first draw exactly where it drew. -/
theorem drawingTwiceRestoresThePlane : Obligations.DrawingTwiceRestoresThePlane := by
  unfold Obligations.DrawingTwiceRestoresThePlane
  refine fun g p bs xs ys => ⟨drawSprite_drawSprite_plane g p bs xs ys, ?_⟩
  rintro rfl
  exact ⟨drawSprite_zero_hit g bs xs ys, drawSprite_drawSprite_zero_hit g bs xs ys⟩

/-! ### DRW -/

theorem State.planeDraw_plane (s : State) (bs : List Byte) (xs ys : Byte) :
    (s.planeDraw bs xs ys).plane = (drawSprite s.cfg.geometry s.plane bs xs ys).plane := rfl

theorem State.planeDraw_dirty (s : State) (bs : List Byte) (xs ys : Byte) :
    (s.planeDraw bs xs ys).dirty = (s.dirty || (drawSprite s.cfg.geometry s.plane bs xs ys).changed) := rfl

theorem State.planeDraw_getV_flag (s : State) (bs : List Byte) (xs ys : Byte) :
    (s.planeDraw bs xs ys).getV 15 = flagByte (drawSprite s.cfg.geometry s.plane bs xs ys).hit := by
  rw [State.planeDraw, State.getV_setFlag, if_pos rfl]

theorem State.planeDraw_keepsRegsBut (s : State) (bs : List Byte) (xs ys : Byte) :
    KeepsRegsBut [15] s (s.planeDraw bs xs ys) := State.setFlag_keepsRegsBut _ _

/-- Settles O33: a block inside memory is drawn as `drew_drawSprite` says, cell by cell, and one past it raises the fault alone. -/
theorem drwXorsTheSpriteAndReportsCollision : Obligations.DrwXorsTheSpriteAndReportsCollision := by
  unfold Obligations.DrwXorsTheSpriteAndReportsCollision
  intro x y n s g bytes drawn
  have hdrew := drew_drawSprite g s.plane bytes (s.getV x) (s.getV y)
  have hflag := flagByte_of_iff (drawSprite_hit_iff g s.plane bytes (s.getV x) (s.getV y))
  have hchanged := drawSprite_changed_iff g s.plane bytes (s.getV x) (s.getV y)
  refine ⟨isWordOf_encode (.drw x y n), fun hfits => ?_,
    fun hover => faultsWith_of_raiseIn (exec_drw_of_overrun hover)⟩
  refine ⟨s.planeDraw bytes (s.getV x) (s.getV y), exec_drw_of_fits hfits,
    fun cx cy hin => ⟨fun hd => ?_, fun hd => ?_⟩, fun hlit => ?_, fun hunlit => ?_, fun hd => ?_, fun hnone => ?_,
    s.planeDraw_keepsRegsBut _ _ _, keepsAllBut_regs_plane_dirty s _ _ _⟩
  · rw [State.planeDraw_plane]
    exact hdrew.toggled cx cy hin hd.2
  · rw [State.planeDraw_plane]
    exact hdrew.kept cx cy hin fun hbit => hd ⟨hin, hbit⟩
  · rw [State.planeDraw_getV_flag]
    exact (hflag.resolve_right fun h => h.1 hlit).2
  · rw [State.planeDraw_getV_flag]
    exact (hflag.resolve_left fun ⟨⟨cx, cy, hd, hlit⟩, _⟩ => Bool.eq_false_iff.mp (hunlit cx cy hd) hlit).2
  · rw [State.planeDraw_dirty, hchanged.mpr hd, Bool.or_true]
  · have hkept := Bool.eq_false_iff.mpr (mt hchanged.mp fun ⟨cx, cy, hd⟩ => hnone cx cy hd)
    rw [State.planeDraw_dirty, hkept, Bool.or_false]

/-! ### The geometry (R28, R190) -/

/-- Settles O35: row-major places below `W × H` are distinct for distinct cells, and no instruction writes the parameters. -/
theorem geometryFixesTheCells : Obligations.GeometryFixesTheCells := by
  unfold Obligations.GeometryFixesTheCells
  refine ⟨rfl, rfl, rfl, rfl, fun g x y x' y' hin hin' => ⟨?_, cellIndex_inj hin.1 hin'.1⟩, fun insn s t he => ?_⟩
  · exact (cellIndex_lt hin).trans_le (cells_le g)
  · rw [exec_cfg he]

end Sys2Proof.Machine
end

section
/-! The keypad: SKP, SKNP, and the key wait LD Vx, K (45_keypad.md R210 to R212; 60_exceptions.md R256, R262, R263). -/

namespace Sys2Proof.Machine

/-! ### The key skips -/

theorem State.keyDown_iff (s : State) (k : Byte) :
    s.keyDown k = true ↔ k.toNat ≤ 0xF ∧ s.input.keyDown.getLsbD k.toNat = true := by
  rw [State.keyDown, Bool.and_eq_true, decide_eq_true_iff]

theorem exec_skp (x : Reg) (s : State) : exec (.skp x) s = .next (s.skipIf (s.keyDown (s.getV x))) := rfl

theorem exec_sknp (x : Reg) (s : State) : exec (.sknp x) s = .next (s.skipIf (!s.keyDown (s.getV x))) := rfl

/-- Settles O36: the two instructions are `skipIf` of the test `State.keyDown` and of its negation. -/
theorem keySkipsTestTheKeyInVx : Obligations.KeySkipsTestTheKeyInVx := by
  unfold Obligations.KeySkipsTestTheKeyInVx
  intro x s down
  have hdown : s.keyDown (s.getV x) = true ↔ down := s.keyDown_iff (s.getV x)
  exact ⟨isWordOf_encode (.skp x), skipsWhen_of_skipIf (exec_skp x s) hdown,
    isWordOf_encode (.sknp x), skipsWhen_of_skipIf (exec_sknp x s) (Bool.not_iff_not.trans hdown.not)⟩

/-! ### The key wait -/

/-- Settles O37: `AnyKey()` is none, or the code of a down key, or under a fitting pick the code of the key asked for. -/
theorem keyWaitRetriesOrStoresADownKey : Obligations.KeyWaitRetriesOrStoresADownKey := by
  unfold Obligations.KeyWaitRetriesOrStoresADownKey
  refine fun x s => ⟨isWordOf_encode (.ldVxK x), fun hnone => ?_, fun hsome => ?_, fun k hk hdown => ?_⟩
  · exact ⟨_, exec_ldVxK_of_none (State.anyKey_none hnone), s.setPc_pc _, keepsAllBut_pc s _⟩
  · obtain ⟨k, hk, hdown, hkey⟩ := State.anyKey_some hsome
    exact ⟨k, hk, hdown, writesReg_of_setV (exec_ldVxK_of_some hkey)⟩
  · obtain ⟨pick, hkey⟩ := State.anyKey_every hk hdown
    exact ⟨pick, writesReg_of_setV (exec_ldVxK_of_some hkey)⟩

/-- Just after the fetch `pc0` is the `pc` that was fetched from (R90). -/
theorem State.insnAddr_of_fetched (s : State) (a : Word) : (s.setPc (a + 2)).insnAddr = a := by
  rw [State.insnAddr, State.setPc_pc, BitVec.add_sub_cancel]

/-- While no key is down the retry undoes the fetch, so only what a fire does around the engine step is left (R212, R256). -/
theorem step_of_ldVxK_of_noKey {s : State} {x : Reg} (hrun : s.halted = false) (hclock : s.input.clock = .instruction)
    (hfetch : s.fetch16 s.pc = some (encode (.ldVxK x))) (hkeys : s.input.keyDown = 0) :
    step s = .next s.advanceInsnClock.nextInput := by
  have hnone : (s.advanceInsnClock.setPc (s.pc + 2)).anyKey = none := State.anyKey_none hkeys
  rw [step_of_instr hrun hclock hfetch (decodeWord_encode (.ldVxK x)), exec_ldVxK_of_none hnone,
    State.insnAddr_of_fetched]
  rfl

/-- Settles O38: the two bytes at `pc` are the fetched word, and the retry of `step_of_ldVxK_of_noKey` leaves what the fire does. -/
theorem keyWaitStepLeavesTheStateUnchanged : Obligations.KeyWaitStepLeavesTheStateUnchanged := by
  unfold Obligations.KeyWaitStepLeavesTheStateUnchanged
  intro x s hrun hclock hpc hword hkeys
  have hfetch : s.fetch16 s.pc = some (encode (.ldVxK x)) :=
    (State.fetch16_of_fits hpc).trans (congrArg some hword)
  exact ⟨_, step_of_ldVxK_of_noKey hrun hclock hfetch hkeys, s.advanceInsnClock_nextInput_keepsAllBut⟩

end Sys2Proof.Machine
end

section
/-! Timers, BCD and register blocks: the timer moves, LD B, LD [I] and LD Vx, [I], and that a load gives back what a store wrote (20_memory.md R64, R72; 46_timers_bcd_font_block.md R220 to R226). -/

namespace Sys2Proof.Machine

/-! ### Storing a block at `I` (R64, R223, R225) -/

/-- Byte `k` of a written block stands at `a + k`. -/
theorem Memory.read_writeBlock_add (m : Memory) (a : Nat) {bs : List Byte} {k : Nat} (h : k < bs.length) :
    (m.writeBlock a bs).read (a + k) = bs.getD k 0 := by
  rw [Memory.read_writeBlock, if_pos ⟨Nat.le_add_right a k, Nat.add_lt_add_left h a⟩, Nat.add_sub_cancel_left]

/-- Every byte outside the block stays (R64). -/
theorem State.writeBlock_keepsMemoryBut (s : State) (a : Nat) (bs : List Byte) :
    KeepsMemoryBut a bs.length s { s with mem := s.mem.writeBlock a bs } := by
  intro b hb
  rw [Memory.read_writeBlock, if_neg (by omega)]

theorem State.storeBlock_of_fits {s : State} {insn : Instr} {bs : List Byte} (h : s.i.toNat + bs.length ≤ 4096) :
    s.storeBlock insn bs = { s with mem := s.mem.writeBlock s.i.toNat bs } := by
  rw [State.storeBlock, State.memWrite_of_fits h]

theorem State.storeBlock_of_overrun {s : State} {insn : Instr} {bs : List Byte} (h : 4096 < s.i.toNat + bs.length) :
    s.storeBlock insn bs = s.raiseIn insn .writeRange s.i bs.length := by
  rw [State.storeBlock, State.memWrite_of_overrun h]

/-- The two forms that store a block, LD B and LD [I], write it at `I` and nothing else when it lies in memory. -/
theorem storesBlock_of_storeBlock {insn : Instr} {s : State} {bs : List Byte}
    (he : exec insn s = .next (s.storeBlock insn bs)) (h : s.i.toNat + bs.length ≤ 4096) :
    Completes insn s fun t =>
      (∀ k < bs.length, t.mem.read (s.i.toNat + k) = bs.getD k 0) ∧
        KeepsMemoryBut s.i.toNat bs.length s t ∧ KeepsAllBut [.memory] s t := by
  rw [State.storeBlock_of_fits h] at he
  exact ⟨_, he, fun _ hk => s.mem.read_writeBlock_add s.i.toNat hk,
    s.writeBlock_keepsMemoryBut s.i.toNat bs, keepsAllBut_memory s _⟩

/-- The same two forms raise the fault alone when the block overruns memory (R240). -/
theorem faultsWith_of_storeBlock {insn : Instr} {s : State} {bs : List Byte}
    (he : exec insn s = .next (s.storeBlock insn bs)) (h : 4096 < s.i.toNat + bs.length) :
    FaultsWith insn s .writeRange s.i bs.length := by
  rw [State.storeBlock_of_overrun h] at he
  exact faultsWith_of_raiseIn he

/-! ### The stored blocks -/

theorem exec_ldB (x : Reg) (s : State) :
    exec (.ldB x) s = .next (s.storeBlock (.ldB x) (bcdDigits (s.getV x))) := rfl

theorem exec_ldStore (x : Reg) (s : State) :
    exec (.ldStore x) s = .next (s.storeBlock (.ldStore x) (registerBlock s x)) := rfl

theorem bcdDigits_length (v : Byte) : (bcdDigits v).length = 3 := rfl

/-- The digits of a byte are at most 9, so none is cut by its byte (R223). -/
theorem bcdDigits_toNat (v : Byte) :
    ((bcdDigits v).getD 0 0).toNat = v.toNat / 100 ∧ ((bcdDigits v).getD 1 0).toNat = v.toNat / 10 % 10 ∧
      ((bcdDigits v).getD 2 0).toNat = v.toNat % 10 := by
  have hv := v.isLt
  refine ⟨?_, ?_, ?_⟩ <;> refine (BitVec.toNat_ofNat _ 8).trans (Nat.mod_eq_of_lt ?_) <;> omega

/-- Byte `r` of the block that LD [I], Vx stores is `V[r]` (R225). -/
theorem getD_registerBlock (s : State) {x r : Reg} (h : r.toNat ≤ x.toNat) :
    (registerBlock s x).getD r.toNat 0 = s.getV r := by
  have hr : r.toNat < blockLength x := Nat.lt_succ_of_le h
  simp [registerBlock, List.getD, hr]

/-- Settles O40: the block stored at `I` is the three digits of `bcdDigits_toNat`. -/
theorem bcdStoresThreeDigitsOrFaults : Obligations.BcdStoresThreeDigitsOrFaults := by
  unfold Obligations.BcdStoresThreeDigitsOrFaults
  intro x s
  have hstore := storesBlock_of_storeBlock (exec_ldB x s)
  have hfault := faultsWith_of_storeBlock (exec_ldB x s)
  rw [bcdDigits_length] at hstore hfault
  refine ⟨isWordOf_encode (.ldB x), fun hfits => ?_, hfault⟩
  obtain ⟨t, he, hbytes, hmem, hframe⟩ := hstore hfits
  obtain ⟨hhundreds, htens, hones⟩ := bcdDigits_toNat (s.getV x)
  rw [← hbytes 0 (by decide)] at hhundreds
  rw [← hbytes 1 (by decide)] at htens
  rw [← hbytes 2 (by decide)] at hones
  exact ⟨t, he, hhundreds, htens, hones, hmem, hframe⟩

/-- Settles O41: the block stored at `I` is the registers V0 to Vx of `getD_registerBlock`. -/
theorem registerStoreWritesV0ToVxOrFaults : Obligations.RegisterStoreWritesV0ToVxOrFaults := by
  unfold Obligations.RegisterStoreWritesV0ToVxOrFaults
  intro x s
  have hstore := storesBlock_of_storeBlock (exec_ldStore x s)
  have hfault := faultsWith_of_storeBlock (exec_ldStore x s)
  rw [registerBlock_length] at hstore hfault
  refine ⟨isWordOf_encode (.ldStore x), fun hfits => ?_, hfault⟩
  obtain ⟨t, he, hbytes, hmem, hframe⟩ := hstore hfits
  refine ⟨t, he, fun r hr => ?_, hmem, hframe⟩
  rw [hbytes r.toNat (Nat.lt_succ_of_le hr), getD_registerBlock s hr]

/-! ### Loading a block from `I` (R226) -/

/-- A register loaded with the block at `a` by LD Vx, [I]: the byte at its place when the block reaches it. -/
theorem State.getV_loadRegs_readBlock (s : State) (a : Nat) (x r : Reg) :
    (s.loadRegs (s.mem.readBlock a (blockLength x)) 0).getV r =
      if r.toNat ≤ x.toNat then s.mem.read (a + r.toNat) else s.getV r := by
  have hx := x.isLt
  have hreach : (0 ≤ r.toNat ∧ r.toNat < 0 + blockLength x) ↔ r.toNat ≤ x.toNat := by
    rw [blockLength]; omega
  rw [State.getV_loadRegs _ _ _ _ (by rw [Memory.length_readBlock, blockLength]; omega), Memory.length_readBlock]
  simp only [hreach, Nat.sub_zero]
  split
  · next hr => exact Memory.getD_readBlock s.mem a _ _ (Nat.lt_succ_of_le hr)
  · rfl

/-- Settles O42: the registers that the block reaches take its bytes (`State.getV_loadRegs_readBlock`), and a block past memory raises the fault alone. -/
theorem registerLoadReadsV0ToVxOrFaults : Obligations.RegisterLoadReadsV0ToVxOrFaults := by
  unfold Obligations.RegisterLoadReadsV0ToVxOrFaults
  refine fun x s => ⟨isWordOf_encode (.ldLoad x), fun hfits => ?_,
    fun hover => faultsWith_of_raiseIn (exec_ldLoad_of_overrun hover)⟩
  refine ⟨_, exec_ldLoad_of_fits hfits, fun r hr => ?_, fun r hr => ?_, s.loadRegs_keepsAllBut _ _⟩
  · rw [State.getV_loadRegs_readBlock, if_pos hr]
  · rw [State.getV_loadRegs_readBlock, if_neg (Nat.not_le.mpr hr)]

/-- Settles O43: the load reads register `r` from the very byte where the store put it. -/
theorem loadGivesBackWhatStoreWrote : Obligations.LoadGivesBackWhatStoreWrote := by
  unfold Obligations.LoadGivesBackWhatStoreWrote
  intro x s t u v hfits hstore hmem hi hload r hr
  obtain ⟨-, hstores, -⟩ := registerStoreWritesV0ToVxOrFaults x s
  obtain ⟨-, hloads, -⟩ := registerLoadReadsV0ToVxOrFaults x u
  obtain ⟨hbytes, -⟩ := (hstores hfits).of_next hstore
  obtain ⟨hregs, -⟩ := (hloads (by rwa [hi])).of_next hload
  rw [hregs r hr, hmem, hi, hbytes r hr]

/-! ### The timer moves (R220 to R222) -/

theorem exec_ldVxDT (x : Reg) (s : State) : exec (.ldVxDT x) s = .next (s.setV x s.dt) := rfl

theorem exec_ldDTVx (x : Reg) (s : State) : exec (.ldDTVx x) s = .next (s.setDT (s.getV x)) := rfl

theorem exec_ldSTVx (x : Reg) (s : State) : exec (.ldSTVx x) s = .next (s.setST (s.getV x)) := rfl

/-- Settles O39: each move is one write, of a register or of a timer. -/
theorem timerMovesCopyAByte : Obligations.TimerMovesCopyAByte := by
  unfold Obligations.TimerMovesCopyAByte
  intro x s
  exact ⟨isWordOf_encode (.ldVxDT x), writesReg_of_setV (exec_ldVxDT x s),
    isWordOf_encode (.ldDTVx x), ⟨_, exec_ldDTVx x s, s.setDT_dt _, keepsAllBut_delay s _⟩,
    isWordOf_encode (.ldSTVx x), ⟨_, exec_ldSTVx x s, s.setST_st _, keepsAllBut_sound s _⟩⟩

end Sys2Proof.Machine
end

section
/-! What an instruction reads of the input ports: RND alone asks the random byte, SKP, SKNP and LD Vx, K alone ask the keypad, and no instruction and no frame step asks which clock fires (60_exceptions.md R261, R264, R268; 70_reset_and_hazards.md R289). -/

namespace Sys2Proof.Machine

/-! ### A change of the input ports -/

/-- `s` with other input ports: the common form of `State.withClock`, `State.withRand` and `State.withKeys`. -/
def State.mapInput (s : State) (f : Input → Input) : State := { s with input := f s.input }

/-- The two inputs agree in all that the instruction may ask of them (R268). -/
def SameReads : Instr → Input → Input → Prop
  | .rnd _ _, a, b => a.rand = b.rand
  | .skp _, a, b => a.keyDown = b.keyDown
  | .sknp _, a, b => a.keyDown = b.keyDown
  | .ldVxK _, a, b => a.keyDown = b.keyDown ∧ a.keyPick = b.keyPick
  | _, _, _ => True

/-- No instruction asks which clock fires. -/
theorem sameReads_clock (insn : Instr) (inp : Input) (c : Clock) : SameReads insn { inp with clock := c } inp := by
  cases insn with
  | rnd | skp | sknp => exact rfl
  | ldVxK => exact ⟨rfl, rfl⟩
  | _ => trivial

/-! ### Operations that ask no port -/

section

variable (s : State) (f : Input → Input)

theorem State.skipIf_mapInput (c : Bool) : (s.mapInput f).skipIf c = (s.skipIf c).mapInput f := by
  cases c <;> rfl

theorem State.popToPc_mapInput : (s.mapInput f).popToPc = s.popToPc.mapInput f := by
  rcases s.popToPc_cases with ⟨hs, he⟩ | ⟨below, top, hs, he⟩ <;> rw [he]
  · exact State.popToPc_nil hs
  · exact State.popToPc_concat hs

theorem State.storeBlock_mapInput (insn : Instr) (bs : List Byte) :
    (s.mapInput f).storeBlock insn bs = (s.storeBlock insn bs).mapInput f := by
  rcases s.storeBlock_cases insn bs with ⟨h, he⟩ | ⟨h, he⟩ <;> rw [he]
  · exact State.storeBlock_of_fits h
  · exact State.storeBlock_of_overrun h

theorem State.loadRegs_mapInput (bs : List Byte) (k : Nat) :
    (s.mapInput f).loadRegs bs k = (s.loadRegs bs k).mapInput f := by
  induction bs generalizing s k with
  | nil => rfl
  | cons b bs ih => exact ih (s.setV (BitVec.ofNat 4 k) b) (k + 1)

theorem exec_call_mapInput (nnn : Addr) :
    exec (.call nnn) (s.mapInput f) = onNext (fun t => t.mapInput f) (exec (.call nnn) s) := by
  rcases Nat.lt_or_ge s.depth s.cfg.stackDepth with h | h
  · rw [exec_call_of_room h]
    exact exec_call_of_room h
  · rw [exec_call_of_full h]
    exact exec_call_of_full h

theorem exec_drw_mapInput (x y : Reg) (n : Nibble) :
    exec (.drw x y n) (s.mapInput f) = onNext (fun t => t.mapInput f) (exec (.drw x y n) s) := by
  rcases Nat.lt_or_ge 4096 (s.i.toNat + n.toNat) with h | h
  · rw [exec_drw_of_overrun h]
    exact exec_drw_of_overrun h
  · rw [exec_drw_of_fits h]
    exact exec_drw_of_fits h

theorem exec_ldLoad_mapInput (x : Reg) :
    exec (.ldLoad x) (s.mapInput f) = onNext (fun t => t.mapInput f) (exec (.ldLoad x) s) := by
  rcases Nat.lt_or_ge 4096 (s.i.toNat + blockLength x) with h | h
  · rw [exec_ldLoad_of_overrun h]
    exact exec_ldLoad_of_overrun h
  · rw [exec_ldLoad_of_fits h, onNext_next, ← State.loadRegs_mapInput]
    exact exec_ldLoad_of_fits h

end

/-! ### The keypad instructions -/

theorem State.keyDown_mapInput {s : State} {f : Input → Input} (h : (f s.input).keyDown = s.input.keyDown) (k : Byte) :
    (s.mapInput f).keyDown k = s.keyDown k := by
  simp only [State.keyDown, State.mapInput, h]

theorem State.anyKey_mapInput {s : State} {f : Input → Input} (hdown : (f s.input).keyDown = s.input.keyDown)
    (hpick : (f s.input).keyPick = s.input.keyPick) : (s.mapInput f).anyKey = s.anyKey := by
  simp only [State.anyKey, State.mapInput, hdown, hpick]

theorem exec_ldVxK_mapInput {s : State} {f : Input → Input} {x : Reg} (h : SameReads (.ldVxK x) (f s.input) s.input) :
    exec (.ldVxK x) (s.mapInput f) = onNext (fun t => t.mapInput f) (exec (.ldVxK x) s) := by
  obtain ⟨hdown, hpick⟩ := h
  have hk : (s.mapInput f).anyKey = s.anyKey := State.anyKey_mapInput hdown hpick
  cases he : s.anyKey with
  | none =>
    rw [exec_ldVxK_of_none he]
    exact exec_ldVxK_of_none (hk.trans he)
  | some k =>
    rw [exec_ldVxK_of_some he]
    exact exec_ldVxK_of_some (hk.trans he)

/-! ### Every instruction -/

/-- A change of ports that the instruction does not ask passes through it. -/
theorem exec_mapInput {insn : Instr} {s : State} {f : Input → Input} (h : SameReads insn (f s.input) s.input) :
    exec insn (s.mapInput f) = onNext (fun t => t.mapInput f) (exec insn s) := by
  cases insn with
  | call nnn => exact exec_call_mapInput s f nnn
  | drw x y n => exact exec_drw_mapInput s f x y n
  | ldLoad x => exact exec_ldLoad_mapInput s f x
  | ret => exact congrArg _ (s.popToPc_mapInput f)
  | seImm | sneImm | seReg | sneReg => exact congrArg _ (s.skipIf_mapInput f _)
  | ldB | ldStore => exact congrArg _ (s.storeBlock_mapInput f _ _)
  | skp x =>
    rw [exec_skp, exec_skp, State.keyDown_mapInput h]
    exact congrArg _ (s.skipIf_mapInput f _)
  | sknp x =>
    rw [exec_sknp, exec_sknp, State.keyDown_mapInput h]
    exact congrArg _ (s.skipIf_mapInput f _)
  | ldVxK x => exact exec_ldVxK_mapInput h
  | rnd x nn =>
    have hr : (s.mapInput f).input.rand = s.input.rand := h
    rw [exec_rnd, exec_rnd, hr]
    rfl
  | _ => rfl

/-- Settles O54: the random byte is a port that no instruction but RND asks, so its change passes through (`exec_mapInput`). -/
theorem onlyRndReadsTheRandomByte : Obligations.OnlyRndReadsTheRandomByte := by
  unfold Obligations.OnlyRndReadsTheRandomByte
  intro insn s r hne
  refine exec_mapInput (f := fun inp => { inp with rand := r }) ?_
  cases insn with
  | rnd x nn => exact absurd rfl (hne x nn)
  | skp | sknp => exact rfl
  | ldVxK => exact ⟨rfl, rfl⟩
  | _ => trivial

/-- Settles O55: the key levels and the pick are ports that no other instruction asks, so their change passes through (`exec_mapInput`). -/
theorem onlyKeypadInstructionsReadTheKeys : Obligations.OnlyKeypadInstructionsReadTheKeys := by
  unfold Obligations.OnlyKeypadInstructionsReadTheKeys
  intro insn s keys pick hne
  refine exec_mapInput (f := fun inp => { inp with keyDown := keys, keyPick := pick }) ?_
  cases insn with
  | skp x => exact absurd rfl (hne x).1
  | sknp x => exact absurd rfl (hne x).2.1
  | ldVxK x => exact absurd rfl (hne x).2.2
  | rnd => exact rfl
  | _ => trivial

end Sys2Proof.Machine
end

section
/-! The two clocks: what a fire of the frame clock does, that a loop iteration of the reference scheduler is a sequence of admitted steps, and how the two timestamps advance (44_display.md R196; 60_exceptions.md R243, R250 to R255). -/

namespace Sys2Proof.Machine

/-! ### The frame step (R252) -/

theorem byte_pred_toNat (b : Byte) : (b - 1).toNat = (b.toNat + 255) % 256 := by
  bv_omega

/-- Settles O13: `frameStep_eq` gives every field that the frame step writes, and `frameFire_keepsAllBut` the frame of the fire. -/
theorem frameStepDecrementsBothTimersAndFlushes : Obligations.FrameStepDecrementsBothTimersAndFlushes := by
  unfold Obligations.FrameStepDecrementsBothTimersAndFlushes
  intro s hrun hclock
  refine ⟨_, step_frame hrun hclock, ?_, ?_, ?_, fun hdirty => ?_, fun hclean => ?_, frameFire_keepsAllBut s⟩
  · rw [State.nextInput_dt, frameStep_eq]
    exact byte_pred_toNat s.dt
  · rw [State.nextInput_st, frameStep_eq]
    exact byte_pred_toNat s.st
  · simp [frameStep_eq]
  · simp [frameStep_eq, hdirty]
  · simp [frameStep_eq, hclean]

/-! ### Which clock is due (R253)

Only the choice of the fire asks the clock port: an engine step and a frame step pass a change of it through, and the environment then moves on to the same next input. -/

theorem engineStep_withClock (s : State) (c : Clock) :
    engineStep (s.withClock c) = onNext (fun t => t.withClock c) (engineStep s) := by
  rcases engineStep_cases s with ⟨w, insn, -, hf, hd, he⟩ | ⟨w, f, -, hf, hd, he⟩ | ⟨h, -, he⟩ <;> rw [he]
  · exact (engineStep_instr (s := s.withClock c) hf hd).trans
      (exec_mapInput (s := s.setPc (s.pc + 2)) (f := fun inp => { inp with clock := c })
        (sameReads_clock insn s.input c))
  · exact engineStep_unknown (s := s.withClock c) hf hd
  · exact engineStep_of_overrun (s := s.withClock c) h

theorem frameStep_withClock (s : State) (c : Clock) : frameStep (s.withClock c) = (frameStep s).withClock c := by
  rw [frameStep_eq, frameStep_eq]
  rfl

theorem State.nextInput_withClock (s : State) (c : Clock) : (s.withClock c).nextInput = s.nextInput := by
  unfold State.nextInput
  rw [State.withClock_script]
  split <;> rfl

/-- With the instruction clock due, a step of a running block is the fire of that clock. -/
theorem step_withClock_instruction {s : State} (hrun : s.halted = false) :
    step (s.withClock .instruction) = instructionFire s := by
  have hadv : (s.withClock .instruction).advanceInsnClock = s.advanceInsnClock.withClock .instruction := rfl
  rw [step_instruction (s := s.withClock .instruction) hrun rfl, hadv, engineStep_withClock, instructionFire]
  cases engineStep s.advanceInsnClock with
  | next u => simp only [onNext_next, State.nextInput_withClock]
  | fault | refused => rfl

/-- With the frame clock due, a step of a running block is the fire of that clock. -/
theorem step_withClock_frame {s : State} (hrun : s.halted = false) :
    step (s.withClock .frame) = .next (frameFire s) := by
  have hadv : (s.withClock .frame).advanceFrameClock = s.advanceFrameClock.withClock .frame := rfl
  rw [step_frame (s := s.withClock .frame) hrun rfl, hadv, frameStep_withClock, State.nextInput_withClock, frameFire]

/-! ### The two halves of a loop iteration (R255) -/

theorem insnMatured_iff {t : Nat} {s : State} (hrun : s.halted = false) :
    insnMatured t s = true ↔ s.tInsn + s.cfg.tickUs ≤ t := by
  simp [insnMatured, hrun]

theorem frameMatured_iff {t : Nat} {s : State} :
    frameMatured t s = true ↔ s.halted = false ∧ s.tFrame + 16666 ≤ t := by
  simp [frameMatured]

theorem insnHalf_eq_step {t : Nat} {s : State} (hrun : s.halted = false) :
    (if insnMatured t s then instructionFire s else .next s) =
      if s.tInsn + s.cfg.tickUs ≤ t then step (s.withClock .instruction) else .next s := by
  simp only [insnMatured_iff hrun, step_withClock_instruction hrun]

theorem fireFrameIfMatured_eq_step (t : Nat) (u : State) :
    Host.Outcome.next (fireFrameIfMatured t u) =
      if u.halted = true then .next u
      else if u.tFrame + 16666 ≤ t then step (u.withClock .frame)
      else .next u := by
  cases hh : u.halted with
  | true => simp [fireFrameIfMatured, frameMatured, hh]
  | false =>
    rw [step_withClock_frame hh]
    by_cases hm : u.tFrame + 16666 ≤ t
    · simp [fireFrameIfMatured, frameMatured_iff, hh, hm]
    · simp [fireFrameIfMatured, frameMatured_iff, hh, hm]

/-- Settles O14: each half of the iteration is a step with its clock due (`insnHalf_eq_step`, `fireFrameIfMatured_eq_step`). -/
theorem loopIterationIsASequenceOfAdmittedSteps : Obligations.LoopIterationIsASequenceOfAdmittedSteps := by
  unfold Obligations.LoopIterationIsASequenceOfAdmittedSteps
  intro t s hrun
  rw [loopIteration, insnHalf_eq_step hrun]
  cases (if s.tInsn + s.cfg.tickUs ≤ t then step (s.withClock .instruction) else .next s) with
  | next u => exact fireFrameIfMatured_eq_step t u
  | fault | refused => rfl

/-! ### The timestamps (R255) -/

theorem clocks_not_mem_destParts (insn : Instr) : Part.clocks ∉ destParts insn := by
  cases insn <;> simp [destParts]

theorem engineStep_clocks {s u : State} (he : engineStep s = .next u) : Part.clocks.same s u := by
  rcases engineStep_cases s with ⟨w, insn, -, -, -, h⟩ | ⟨w, f, -, -, -, h⟩ | ⟨-, -, h⟩ <;> rw [h] at he
  · exact (exec_keepsAllBut insn _).of_next he .clocks (clocks_not_mem_destParts insn)
  · cases he; exact ⟨rfl, rfl⟩
  · cases he; exact ⟨rfl, rfl⟩

theorem instructionFire_clocks {s u : State} (he : instructionFire s = .next u) :
    u.tInsn = s.tInsn + s.cfg.tickUs ∧ u.tFrame = s.tFrame := by
  obtain ⟨w, hw, rfl⟩ := onNext_eq_next.mp he
  obtain ⟨hi, hf⟩ := engineStep_clocks hw
  exact ⟨(State.nextInput_tInsn w).trans hi, (State.nextInput_tFrame w).trans hf⟩

theorem fireFrameIfMatured_clocks (t : Nat) (s : State) :
    (fireFrameIfMatured t s).halted = s.halted ∧ (fireFrameIfMatured t s).tInsn = s.tInsn ∧
      (fireFrameIfMatured t s).tFrame = if frameMatured t s then s.tFrame + 16666 else s.tFrame := by
  unfold fireFrameIfMatured
  split
  · simp [frameFire, frameStep_eq]
  · simp

theorem insnHalf_clocks {t : Nat} {s w : State} (hrun : s.halted = false)
    (h : (if insnMatured t s then instructionFire s else .next s) = .next w) :
    w.tInsn = (if s.tInsn + s.cfg.tickUs ≤ t then s.tInsn + s.cfg.tickUs else s.tInsn) ∧ w.tFrame = s.tFrame := by
  simp only [insnMatured_iff hrun] at h
  split at h
  · next hm => simpa [hm] using instructionFire_clocks h
  · next hm => cases h; simp [hm]

/-- Settles O15: the instruction half moves `tInsn` alone by its period when that clock matured, and the frame half `tFrame` alone. -/
theorem timestampsAdvanceByOnePeriod : Obligations.TimestampsAdvanceByOnePeriod := by
  unfold Obligations.TimestampsAdvanceByOnePeriod
  intro t s u hrun hloop
  obtain ⟨w, hw, rfl⟩ := onNext_eq_next.mp hloop
  obtain ⟨hwinsn, hwframe⟩ := insnHalf_clocks hrun hw
  obtain ⟨hhalt, hinsn, hframe⟩ := fireFrameIfMatured_clocks t w
  simp only [frameMatured_iff, hwframe] at hframe
  rw [hhalt, hinsn, hframe, hwinsn]
  refine ⟨fun h => if_pos h, fun h => if_neg (Nat.not_le.mpr h), fun h hr => if_pos ⟨hr, h⟩, fun h => if_neg ?_⟩
  rintro ⟨hr, hm⟩
  rcases h with hlt | hhalted
  · exact Nat.not_le.mpr hlt hm
  · exact absurd (hr.symm.trans hhalted) nofun

/-- Settles O16: the step of a halted block is the fault of `step_halted`, and its loop iteration fires no clock (`loopIteration_halted`). -/
theorem haltedBlockFiresNoClock : Obligations.HaltedBlockFiresNoClock := by
  unfold Obligations.HaltedBlockFiresNoClock
  exact fun s hh => ⟨step_halted hh, loopIteration_halted hh⟩

end Sys2Proof.Machine
end

section
/-! Faults: an instruction faults exactly under its condition, and a step that faults changes only `pc`, `halted` and the record (60_exceptions.md R240 to R245). -/

namespace Sys2Proof.Machine

/-! ### Which instruction faults (R240, R245) -/

/-- Settles O49: whether the fault status is kept or a fault raised, the table of R240 decides (`exec_completesOrRaises`). -/
theorem instructionFaultsExactlyWhenTheTableSays : Obligations.InstructionFaultsExactlyWhenTheTableSays := by
  unfold Obligations.InstructionFaultsExactlyWhenTheTableSays
  intro insn s t hrun he
  rcases exec_completesOrRaises insn s with ⟨hc, hk⟩ | ⟨hc, cause, addr, len, -, -, hr⟩
  · obtain ⟨hhalt, -⟩ := hk.of_next he
    simp [hhalt, hrun, hc]
  · cases hr.symm.trans he
    exact iff_of_true rfl hc

/-! ### What a fault leaves (R241, R242) -/

/-- The fault of a fetched instruction, seen from before the fetch: `pc` has moved and the fault status is set (R241). -/
theorem State.setPc_raise_keepsAllBut (s : State) (a : Word) (c : FaultCause) (pc0 addr : Word) (n : Nat)
    (w : Option Word) : KeepsAllBut [.pc, .status] s ((s.setPc a).raise c pc0 addr n w) := by
  intro p hp
  cases p <;> simp [Part.same] at hp ⊢

/-- An engine step that halts a running block is a failing fetch or the fault of the fetched instruction, raised after `pc` moved on. -/
theorem engineStep_halts {s u : State} (hrun : s.halted = false) (he : engineStep s = .next u) (hhalt : u.halted = true) :
    (s.fetch16 s.pc = none ∧ u = s.raise .fetchRange s.pc s.pc 2 none) ∨
    ∃ (w : Word) (cause : FaultCause) (addr : Word) (len : Nat),
      s.fetch16 s.pc = some w ∧ cause ≠ .loadOversize ∧ cause ≠ .fetchRange ∧
      u = (s.setPc (s.pc + 2)).raise cause s.pc addr len (some w) := by
  rcases engineStep_cases s with ⟨w, insn, -, hf, hd, h⟩ | ⟨w, f, -, hf, hd, h⟩ | ⟨-, hf, h⟩ <;> rw [h] at he
  · rcases exec_completesOrRaises insn (s.setPc (s.pc + 2)) with ⟨-, hk⟩ | ⟨-, cause, addr, len, hl, hfr, hr⟩
    · obtain ⟨hkept, -⟩ := hk.of_next he
      exact absurd (hhalt.symm.trans (hkept.trans hrun)) nofun
    · cases hr.symm.trans he
      refine .inr ⟨w, cause, addr, len, hf, hl, hfr, ?_⟩
      rw [State.raiseIn, State.insnAddr_of_fetched, decodeWord_eq_instr_iff.mp hd]
  · cases he
    exact absurd (hhalt.symm.trans hrun) nofun
  · cases he
    exact .inl ⟨hf, rfl⟩

/-- Settles O48: only an engine step can halt a running block, and `engineStep_halts` gives the whole state it leaves. -/
theorem runtimeFaultsArePrecise : Obligations.RuntimeFaultsArePrecise := by
  unfold Obligations.RuntimeFaultsArePrecise
  intro s t hstep hhalt
  rcases step_cases hstep with ⟨hrun, ⟨-, u, hu, rfl⟩ | ⟨-, rfl⟩⟩
  · rw [State.nextInput_halted] at hhalt
    rcases engineStep_halts (s := s.advanceInsnClock) hrun hu hhalt with
      ⟨hnone, rfl⟩ | ⟨w, cause, addr, len, hsome, hl, hfr, rfl⟩
    · have hframe := s.advanceInsnClock.raise_keepsAllBut .fetchRange s.pc s.pc 2 none
      refine ⟨.around_engineStep (hframe.mono (by simp)) (by simp) (by simp), _, State.nextInput_fault _, rfl, nofun, ?_, ?_⟩
      · exact fun _ => ⟨State.nextInput_pc _, rfl, hnone⟩
      · exact fun h => absurd rfl h
    · have hfetch : s.fetch16 s.pc = some w := hsome
      have hframe := s.advanceInsnClock.setPc_raise_keepsAllBut (s.pc + 2) cause s.pc addr len (some w)
      refine ⟨.around_engineStep (hframe.mono (by simp)) (by simp) (by simp), _, State.nextInput_fault _, rfl, hl, ?_, ?_⟩
      · exact fun h => absurd h hfr
      · exact fun _ => ⟨State.nextInput_pc _, hfetch.symm, by simp [hfetch]⟩
  · have hkept := (frameFire_keepsAllBut s .status (by simp)).1
    exact absurd (hhalt.symm.trans (hkept.trans hrun)) nofun

end Sys2Proof.Machine
end

section
/-! Construction at its limits: an oversized program never runs, and the empty one gives the reset state (10_state.md R35; 70_reset_and_hazards.md R280, R283). -/

namespace Sys2Proof.Machine

/-- Settles O3: a refused program leaves a halted block (`construct_of_oversized`), an accepted one stands from 0x200 on (`construct_of_fits`). -/
theorem oversizedProgramNeverRuns : Obligations.OversizedProgramNeverRuns := by
  unfold Obligations.OversizedProgramNeverRuns
  intro c program t0 s
  refine ⟨fun h => ?_, fun h => ?_, fun h k hk => ?_⟩
  · have hs : s = (State.blank c t0).raise .loadOversize 0x200 0x200 program.length none := construct_of_oversized h
    have hhalt : s.halted = true := by rw [hs, State.raise_halted]
    exact ⟨hhalt, by rw [hs, State.raise_fault], step_halted hhalt, loopIteration_halted hhalt⟩
  · have hs : s = { State.blank c t0 with mem := loadProgram (loadFont [] c.font) program } := construct_of_fits h
    rw [hs]
    exact ⟨rfl, rfl⟩
  · have hs : s = { State.blank c t0 with mem := loadProgram (loadFont [] c.font) program } :=
      construct_of_fits (Nat.le_of_eq h)
    rw [hs]
    exact read_loadProgram_byte _ program (h ▸ hk)

/-- Bytes that an unlisted address reads anyway list no cell. -/
theorem Memory.writeBlock_nil_background {a : Nat} {bs : List Byte}
    (h : ∀ k < bs.length, bs.getD k 0 = background (a + k)) : Memory.writeBlock [] a bs = [] := by
  induction bs generalizing a with
  | nil => rfl
  | cons b bs ih =>
    have hb : b = background a := h 0 (Nat.succ_pos _)
    have hwrite : Memory.write [] a b = [] := by rw [Memory.write, if_pos hb]; rfl
    rw [Memory.writeBlock, hwrite]
    refine ih fun k hk => ?_
    rw [Nat.add_right_comm]
    exact h (k + 1) (Nat.succ_lt_succ hk)

theorem loadFont_default : loadFont [] defaultFont = [] := by
  refine Memory.writeBlock_nil_background fun k _ => ?_
  rw [background, if_pos (Nat.le_add_right _ _), Nat.add_sub_cancel_left]

/-- Settles O2: the default font is the background of the empty memory (`loadFont_default`), and the empty program writes nothing. -/
theorem resetIsTheConstructionWithTheEmptyProgram : Obligations.ResetIsTheConstructionWithTheEmptyProgram := by
  unfold Obligations.ResetIsTheConstructionWithTheEmptyProgram
  have hfont : loadFont [] defaultConfig.font = [] := loadFont_default
  rw [construct_of_fits (Nat.zero_le _), hfont]
  rfl

end Sys2Proof.Machine
end
